-- ==== Sys2Proof/Word.lean ====
section
/-! DEFINITION. The words the spec treats as bits: command and bus words, byte lanes, register numbers, bus offsets. -/

namespace Sys2Proof

/-- A 32-bit command, bus or limb word (R50, R70). -/
abbrev Word := BitVec 32

/-- One byte lane of a bus word (R58). -/
abbrev Byte := BitVec 8

/-- The number of an operand register, `v0` to `v7` (R21, R72). -/
abbrev Reg := Fin 8

/-- A 13-bit byte offset into the block (R50, R51). -/
abbrev Offset := BitVec 13

end Sys2Proof
end

