-- ==== Sys2Proof/Config.lean ====
section
/-! DEFINITION. What a build of the block fixes (R8), and the free values of what the spec leaves open. -/

namespace Sys2Proof

/-- The multiplication method of a build, `EXP_METHOD` (R8); only PARAM reports it, no result depends on it (R103). -/
inductive ExpMethod where
  | binary
  | montgomery
deriving DecidableEq, Repr

/-- The bus the host port speaks, `BUS_PROTOCOL` (R8); no rule reads it, since the spec defines logical transactions
only (R50). -/
inductive BusProtocol where
  | apb
  | axi4Lite
  | other
deriving DecidableEq, Repr

/-- The parameters of a block and of its platform that are data (R8); `WITNESS_DRAW`, a map, is `WitnessDraw` below. The
State carries them, so that a statement about every state speaks of every value of theirs (logs 9 and 23). -/
structure Build where
  /-- `LIMBS = W/32`, so that every width is a multiple of 32. -/
  limbs : Nat
  /-- `EXP_METHOD`. -/
  expMethod : ExpMethod
  /-- `MAE_BASE`, the host address of offset `0x0000` (R51). -/
  base : Nat
  /-- `BUS_PROTOCOL`. -/
  bus : BusProtocol
  /-- `ENTROPY_QUALITY`: whether the entropy source is cryptographically secure; no rule reads it (R26, U13). -/
  entropySecure : Bool
deriving DecidableEq, Repr

/-- The operand width `W` in bits (R8). -/
def Build.width (b : Build) : Nat := 32 * b.limbs

/-- `2048 <= W <= 4096` (R8) and a base address that is 8 KiB aligned (R51). -/
def Build.legal (b : Build) : Bool :=
  decide (64 ≤ b.limbs) && decide (b.limbs ≤ 128) && decide (b.base % 0x2000 = 0)

/-- The default build, `W = 2048` and the binary method (R8, R28); the spec gives the three platform parameters no
default (log 23). -/
def Build.standard : Build := ⟨64, .binary, 0, .other, true⟩

/-- `WITNESS_DRAW` (R8): what the method makes of the entropy words taken for one draw, the oldest first, when the
candidate is `n`: a witness, or `none` when it needs another word (R118). A method is an argument, never a part of the
State. -/
abbrev WitnessDraw := Nat → List Word → Option Nat

/-- What R118 requires of every method: its witnesses lie in `[2, n - 2]`. -/
def WitnessDraw.legal (method : WitnessDraw) : Prop :=
  ∀ (n : Nat) (words : List Word) (a : Nat), method n words = some a → 2 ≤ a ∧ a ≤ n - 2

/-- FREE VALUE: the 32-bit value a host reads where the spec says "any value" (R54, U1, U2; log 4). -/
opaque Config.freeWord : Nat → Word

/-- FREE VALUE: the unspecified contents of an operand register after an abort or a reset (R145, R23, U1, U3; logs 2
and 3). It is reduced to the operand width where it is used. -/
opaque Config.freeOperand : Nat → Nat

end Sys2Proof
end

