-- ==== Sys2Proof/Syntax.lean ====
section
/-! DEFINITION. The commands: one constructor per row of spec/opcode_table.json (R74, R80). -/

namespace Sys2Proof

/-- A command with its operands in the order of its assembler syntax (R80). Register operands carry their range in
their type; `rounds` is a number, and its range `0..255` (R73, R80) is checked by `Instr.wf`. -/
inductive Instr where
  /-- `MODRED vd, va, vm` (R90). -/
  | modred (rd ra rm : Reg)
  /-- `MODMUL vd, va, vb, vm` (R92). -/
  | modmul (rd ra rb rm : Reg)
  /-- `MODEXP vd, vbase, vexp, vm` (R100). -/
  | modexp (rd ra rb rm : Reg)
  /-- `MODINV vd, va, vn`, the modulus in field `rm` (R130). -/
  | modinv (rd ra rm : Reg)
  /-- `FERMAT2 vd, vp` (R112). -/
  | fermat2 (rd ra : Reg)
  /-- `MRROUND vd, vn, vw` (R116). -/
  | mrround (rd ra rb : Reg)
  /-- `PRIMETEST vd, vn, #rounds` (R119). -/
  | primetest (rd ra : Reg) (rounds : Nat)
deriving DecidableEq, Repr

end Sys2Proof
end

