-- ==== Sys2Proof/Machine/State.lean ====
section
/-! DEFINITION. The state of one MAE (R20), the inputs its agents supply (R62, R158), the outcomes, and the reset state
(R166). -/

namespace Sys2Proof.Machine

/-! ## The host port and the other inputs -/

/-- Direction of a host transaction (R50). -/
inductive Direction where
  | read
  | write
deriving DecidableEq, Repr

/-- A logical transaction on the host port (R50). `size` is in bytes; `strobes` are a write's byte strobes, all four
set on a bus that has none (R57, log 14). -/
structure Transaction where
  dir : Direction
  off : Offset
  size : Nat
  wdata : Word
  strobes : BitVec 4
deriving DecidableEq, Repr

/-- The response of the host port (R50). -/
inductive Response where
  | ok
  | err
deriving DecidableEq, Repr

/-- The answer to a transaction: its response and, for a read, the data (R50, R57). A write's answer carries no data
(log 13). -/
structure Answer where
  resp : Response
  rdata : Option Word
deriving DecidableEq, Repr

/-- One step of one agent (R62, R158). -/
inductive Input where
  /-- The host performs a transaction (R55, R56, R57). -/
  | host (t : Transaction)
  /-- The engine takes its turn: the completion of the in-flight command, if it is enabled (R158). -/
  | engine
  /-- The entropy source offers a word (R26); `made` is what `WITNESS_DRAW` makes of the words taken for this draw with
  this one the last, a free input of the step (R12, R118, R158; log 5). -/
  | entropy (word : Word) (made : Option Nat)
  /-- The pin `rst_n` is driven to this level (R165). -/
  | resetPin (level : Bool)
deriving DecidableEq, Repr

/-! ## The state -/

/-- The in-flight command (R41): its word, whose fields are read with `rdField` and its like, and the snapshots of
`V[ra]`, `V[rb]` and `V[rm]` taken at acceptance. -/
structure InFlight where
  word : Word
  a : Nat
  b : Nat
  m : Nat
deriving DecidableEq, Repr

/-- The state. The fields down to `init` are the tuple of R20 (with the build's constants in front); `draws` and
`entWords` are the hidden state of R42; `rstN` is the level of the pin `rst_n` (R25, R165). `answer`, `inputs` and
`fresh` are the model's own: the latest answer of the host port, the steps still to come, and the index of the next free value. -/
structure State where
  /-- The build's parameters, constant (R8, R28; log 9). -/
  build : Build
  /-- `V0` to `V7`, each in `[0, 2^W)` (R21). -/
  v : Vector Nat 8
  /-- The in-flight command (R41). -/
  inflight : Option InFlight
  /-- `STATUS.DONE` (R32). -/
  done : Bool
  /-- `STATUS.PRED` (R34). -/
  pred : Bool
  /-- `STATUS.OVR` (R35). -/
  ovr : Bool
  /-- `STATUS.ERRCODE` (R36). -/
  errCode : BitVec 4
  /-- `IRQEN.DONE_IE` (R38). -/
  doneIE : Bool
  /-- `IRQEN.OVR_IE` (R38). -/
  ovrIE : Bool
  /-- `CMDLAST`, the read-back of CMD (R39). -/
  cmdLast : Word
  /-- The ghost bits: bit `k` of entry `i` is `init[i][k]` (R23). -/
  init : Vector (BitVec 128) 8
  /-- The witnesses the in-flight PRIMETEST has drawn so far, the oldest first (R42, R118). -/
  draws : List Nat
  /-- The entropy words taken for the witness still being drawn, the oldest first (R26, R42, R118). -/
  entWords : List Word
  /-- The level of `rst_n`; the block is held in reset while it is `false` (R165). -/
  rstN : Bool
  /-- The answer of the latest host transaction (R50; log 13). -/
  answer : Option Answer
  /-- The steps still to come, the next first (log 6). -/
  inputs : List Input
  /-- The index of the next free value (log 4). -/
  fresh : Nat
deriving DecidableEq, Repr

/-- The outcome codes other than OK (R140). -/
inductive ErrorCode where
  | illegalCmd
  | badModulus
  | notInvertible
  | badOperand
  | aborted
deriving DecidableEq, Repr

/-- Why the machine stops with a fault. -/
inductive Fault where
  /-- `UNINIT_OPERAND`, a model fault of the spec's, after which a model must not continue (R11, R13): raised by the
  acceptance of a command that reads a register with an `init` bit 0 (R23, R141).
  Safe: the hardware goes on with a result the spec gives no meaning. -/
  | uninitOperand
  /-- `ACCESS_IN_RESET`: raised by a host transaction while `rst_n = 0` (R165). Safe: the spec gives such an access no
  meaning. -/
  | accessInReset
  /-- Raised by the engine's turn when the in-flight word is no command. Safe: only a legal word is ever in flight
  (R31, R141), so no run from reset reaches it (log 11). -/
  | illegalInFlight
deriving DecidableEq, Repr

/-- Why the model gives no meaning. -/
inductive Refusal where
  /-- Raised by an arm of `exec` whose instruction has no meaning yet; no arm raises it now. Safe: nothing follows. -/
  | notModelled (mnemonic : String)
deriving DecidableEq, Repr

/-- The outcome of a step or of a meaning. -/
abbrev Result := Host.Outcome State Fault Refusal

/-! ## Reset -/

/-- The reset state of a build (R166). The spec leaves the operand registers unspecified; the model names 0 for the
first reset (log 1), and no statement reads it. -/
def State.resetOf (b : Build) : State where
  build := b
  v := Vector.replicate 8 0
  inflight := none
  done := false
  pred := false
  ovr := false
  errCode := 0
  doneIE := false
  ovrIE := false
  cmdLast := 0
  init := Vector.replicate 8 0
  draws := []
  entWords := []
  rstN := true
  answer := none
  inputs := []
  fresh := 0

/-- The machine right after reset, at the default parameters (R8, R166). -/
def State.reset : State := State.resetOf Build.standard

end Sys2Proof.Machine
end

