-- ==== Sys2Proof/Machine/Flags.lean ====
section
/-! DEFINITION. The control and status registers as words, their writes, the outcome codes and the interrupt output
(R27 to R40, R140, R150). -/

namespace Sys2Proof.Machine

/-- The code of an outcome (R140). -/
def ErrorCode.code : ErrorCode → BitVec 4
  | .illegalCmd => 1
  | .badModulus => 2
  | .notInvertible => 3
  | .badOperand => 4
  | .aborted => 5

/-- `STATUS.BUSY`: a command is in flight (R31). -/
def State.busy (s : State) : Bool := s.inflight.isSome

/-- `STATUS.ERR`: `ERRCODE != 0`, with no storage of its own (R33). -/
def State.err (s : State) : Bool := s.errCode != 0

/-- The STATUS word (R30, R55). -/
def State.statusWord (s : State) : Word :=
  0#20 ++ s.errCode ++ 0#3 ++ BitVec.ofBool s.ovr ++ BitVec.ofBool s.pred ++ BitVec.ofBool s.err
    ++ BitVec.ofBool s.done ++ BitVec.ofBool s.busy

/-- The ID word, "MAE1" (R27). -/
def idWord : Word := 0x4D414531#32

/-- `PARAM.EXPM` (R28). -/
def expmBit : ExpMethod → BitVec 1
  | .binary => 0
  | .montgomery => 1

/-- The PARAM word of a build (R28). -/
def paramWord (b : Build) : Word := 0#11 ++ expmBit b.expMethod ++ 8#4 ++ BitVec.ofNat 16 b.limbs

/-- The IRQEN word (R38). -/
def State.irqenWord (s : State) : Word := 0#30 ++ BitVec.ofBool s.ovrIE ++ BitVec.ofBool s.doneIE

/-- The interrupt output, a function of the state (R150). -/
def State.irq (s : State) : Bool := (s.done && s.doneIE) || (s.ovr && s.ovrIE)

/-- A host write to STATUS: bit 1 clears DONE and ERRCODE, bit 4 clears OVR, in one step (R37). The acknowledgement of
an outcome is the write of `0x00000002` (R151). -/
def State.statusWrite (s : State) (w : Word) : State :=
  { s with done := s.done && !w.getLsbD 1
           errCode := if w.getLsbD 1 then 0 else s.errCode
           ovr := s.ovr && !w.getLsbD 4 }

/-- A host write to IRQEN (R38, R56). -/
def State.irqenWrite (s : State) (w : Word) : State :=
  { s with doneIE := w.getLsbD 0, ovrIE := w.getLsbD 1 }

/-- A host write was discarded because the engine was busy (R35). -/
def State.overrun (s : State) : State := { s with ovr := true }

end Sys2Proof.Machine
end

