-- ==== Sys2Proof/WellFormed.lean ====
section
/-! DEFINITION. Which commands have an encoding: the one range the types do not carry is PRIMETEST's rounds count. -/

namespace Sys2Proof

/-- `MAX_ROUNDS`, the largest rounds count (R8, R121). -/
def maxRounds : Nat := 255

/-- An assembler refuses a rounds value outside `0..255` (R80). -/
def Instr.wf : Instr → Bool
  | .modred _ _ _ => true
  | .modmul _ _ _ _ => true
  | .modexp _ _ _ _ => true
  | .modinv _ _ _ => true
  | .fermat2 _ _ => true
  | .mrround _ _ _ => true
  | .primetest _ _ rounds => decide (rounds ≤ maxRounds)

end Sys2Proof
end

