-- ==== Sys2Proof/Decode.lean ====
section
/-! DEFINITION. The command word: its fields, the decoder over the match and mask table, the encoder, the byte lanes
and the assembler (30_encoding.md). -/

namespace Sys2Proof

/-! ## The fields of the command word (R71) -/

/-- Bits 7:0. -/
def opField (w : Word) : BitVec 8 := w.extractLsb' 0 8

/-- Bits 10:8, the destination register. -/
def rdField (w : Word) : Reg := (w.extractLsb' 8 3).toFin

/-- Bits 14:12, the first source register. -/
def raField (w : Word) : Reg := (w.extractLsb' 12 3).toFin

/-- Bits 18:16, the second source register. -/
def rbField (w : Word) : Reg := (w.extractLsb' 16 3).toFin

/-- Bits 22:20, the modulus register. -/
def rmField (w : Word) : Reg := (w.extractLsb' 20 3).toFin

/-- Bits 31:24, zero-extended, neither scaled nor shifted (R73). -/
def immField (w : Word) : Nat := (w.extractLsb' 24 8).toNat

/-! ## Illegal words (R77) -/

/-- Why a word is no command. All of them are refused with ILLEGAL_CMD (R77); `notOneWord` is the answer to a byte
string that is not one 32-bit word (R70). -/
inductive Illegal where
  | opcode
  | reservedBit
  | unusedField
  | notOneWord
deriving DecidableEq, Repr

/-- The bits 11, 15, 19 and 23 (R71). -/
def reservedMask : Word := 0x00888800#32

/-- Opcodes `0x00` and `0x08..0xFF` are illegal (R74, R77). -/
def opcodeIllegal (w : Word) : Bool := opField w == 0 || decide (8 ≤ (opField w).toNat)

/-- Some reserved bit is 1 (R77). -/
def reservedBitSet (w : Word) : Bool := w &&& reservedMask != 0

/-- The fields that R75 lists as must-be-zero for an opcode, as the mask of their bits. -/
def mustBeZeroMask (op : BitVec 8) : Word :=
  let rb : Word := 0x00070000#32
  let rm : Word := 0x00700000#32
  let imm : Word := 0xFF000000#32
  match op.toNat with
  | 1 => rb ||| imm
  | 2 => imm
  | 3 => imm
  | 4 => rb ||| imm
  | 5 => rb ||| rm ||| imm
  | 6 => rm ||| imm
  | 7 => rb ||| rm
  | _ => 0

/-- A field that is unused for the word's opcode is not 0 (R75, R77). -/
def unusedFieldSet (w : Word) : Bool := w &&& mustBeZeroMask (opField w) != 0

/-- The three grounds of R77, the opcode first. -/
def illegalReason (w : Word) : Illegal :=
  if opcodeIllegal w then .opcode else if reservedBitSet w then .reservedBit else .unusedField

/-! ## Decoding (R76, R78) -/

/-- One row of the table of R78: a word is the row's command exactly when `(w AND mask) = match`. -/
structure Row where
  mnemonic : String
  matchBits : Word
  maskBits : Word
  make : Word → Instr

/-- `(w AND mask) = match` (R76). -/
def Row.accepts (row : Row) (w : Word) : Bool := w &&& row.maskBits == row.matchBits

/-- The table of R78, in its order. -/
def rows : List Row :=
  [⟨"MODRED", 0x00000001#32, 0xFF8F88FF#32, fun w => .modred (rdField w) (raField w) (rmField w)⟩,
   ⟨"MODMUL", 0x00000002#32, 0xFF8888FF#32, fun w => .modmul (rdField w) (raField w) (rbField w) (rmField w)⟩,
   ⟨"MODEXP", 0x00000003#32, 0xFF8888FF#32, fun w => .modexp (rdField w) (raField w) (rbField w) (rmField w)⟩,
   ⟨"MODINV", 0x00000004#32, 0xFF8F88FF#32, fun w => .modinv (rdField w) (raField w) (rmField w)⟩,
   ⟨"FERMAT2", 0x00000005#32, 0xFFFF88FF#32, fun w => .fermat2 (rdField w) (raField w)⟩,
   ⟨"MRROUND", 0x00000006#32, 0xFFF888FF#32, fun w => .mrround (rdField w) (raField w) (rbField w)⟩,
   ⟨"PRIMETEST", 0x00000007#32, 0x00FF88FF#32, fun w => .primetest (rdField w) (raField w) (immField w)⟩]

/-- Decoding, a total function of 32-bit words: the first row that accepts the word, else ILLEGAL with its reason
(R76, R77). -/
def decode (w : Word) : Except Illegal Instr :=
  match rows.find? (fun row => row.accepts w) with
  | some row => .ok (row.make w)
  | none => .error (illegalReason w)

/-- The 32-bit value carried by four byte lanes, lane 0 the least significant (R58). -/
def wordOfLanes (b0 b1 b2 b3 : Byte) : Word := b3 ++ b2 ++ b1 ++ b0

/-- Lane `j` of a word: bits `8j+7 .. 8j` (R58). -/
def laneOf (w : Word) (j : Nat) : Byte := w.extractLsb' (8 * j) 8

/-- Decoding of any string of bytes, lowest lane first: a command is one 32-bit word written whole, there are no
shorter or longer ones (R58, R70). -/
def decodeBytes : List Byte → Except Illegal Instr
  | [b0, b1, b2, b3] => decode (wordOfLanes b0 b1 b2 b3)
  | _ => .error .notOneWord

/-- The command the decoder reads from a table word of `nbits` bits, laid out in its four byte lanes. -/
def decodeTableWord (nbits w : Nat) : Option Instr :=
  let word := BitVec.ofNat 32 (w % 2 ^ nbits)
  (decodeBytes [laneOf word 0, laneOf word 1, laneOf word 2, laneOf word 3]).toOption

/-! ## Encoding (R71) -/

/-- `imm << 24 | rm << 20 | rb << 16 | ra << 12 | rd << 8 | op` (R71). -/
def packWord (imm : Nat) (rm rb ra rd : Reg) (op : Nat) : Word :=
  BitVec.ofNat 32 imm <<< 24 ||| BitVec.ofNat 32 rm.val <<< 20 ||| BitVec.ofNat 32 rb.val <<< 16
    ||| BitVec.ofNat 32 ra.val <<< 12 ||| BitVec.ofNat 32 rd.val <<< 8 ||| BitVec.ofNat 32 op

/-- The word of a command; fields not in its syntax are encoded as 0 (R74, R80). -/
def encode : Instr → Word
  | .modred rd ra rm => packWord 0 rm 0 ra rd 0x01
  | .modmul rd ra rb rm => packWord 0 rm rb ra rd 0x02
  | .modexp rd ra rb rm => packWord 0 rm rb ra rd 0x03
  | .modinv rd ra rm => packWord 0 rm 0 ra rd 0x04
  | .fermat2 rd ra => packWord 0 0 0 ra rd 0x05
  | .mrround rd ra rb => packWord 0 0 rb ra rd 0x06
  | .primetest rd ra rounds => packWord rounds 0 0 ra rd 0x07

/-- The registers a command reads (the "reads" column of R75). -/
def Instr.reads : Instr → List Reg
  | .modred _ ra rm => [ra, rm]
  | .modmul _ ra rb rm => [ra, rb, rm]
  | .modexp _ ra rb rm => [ra, rb, rm]
  | .modinv _ ra rm => [ra, rm]
  | .fermat2 _ ra => [ra]
  | .mrround _ ra rb => [ra, rb]
  | .primetest _ ra _ => [ra]

/-- The register a command writes at success (R75). -/
def Instr.dest : Instr → Reg
  | .modred rd _ _ => rd
  | .modmul rd _ _ _ => rd
  | .modexp rd _ _ _ => rd
  | .modinv rd _ _ => rd
  | .fermat2 rd _ => rd
  | .mrround rd _ _ => rd
  | .primetest rd _ _ => rd

/-- The predicate commands, which also write `STATUS.PRED` (R34, R75). -/
def Instr.isPredicate : Instr → Bool
  | .modred _ _ _ => false
  | .modmul _ _ _ _ => false
  | .modexp _ _ _ _ => false
  | .modinv _ _ _ => false
  | .fermat2 _ _ => true
  | .mrround _ _ _ => true
  | .primetest _ _ _ => true

/-! ## Assembler syntax (R80, R81) -/

/-- An operand as written: `v<n>` or `#<n>` (R80). -/
inductive AsmOperand where
  | reg (n : Nat)
  | imm (n : Nat)
deriving DecidableEq, Repr

/-- A register is written `v0` to `v7` (R80). -/
def asmReg (n : Nat) : Option Reg := if h : n < 8 then some ⟨n, h⟩ else none

/-- The mnemonics an assembler accepts: the seven commands (R80) and the four pseudo-instructions (R81). -/
inductive AsmMnemonic where
  | modred
  | modmul
  | modexp
  | modinv
  | fermat2
  | mrround
  | primetest
  | modsqr
  | isprime
  | rsaenc
  | rsadec
deriving DecidableEq, Repr

/-- Reading a mnemonic, case-insensitive (R80). -/
def readMnemonic (text : String) : Option AsmMnemonic :=
  match text.toUpper with
  | "MODRED" => some .modred
  | "MODMUL" => some .modmul
  | "MODEXP" => some .modexp
  | "MODINV" => some .modinv
  | "FERMAT2" => some .fermat2
  | "MRROUND" => some .mrround
  | "PRIMETEST" => some .primetest
  | "MODSQR" => some .modsqr
  | "ISPRIME" => some .isprime
  | "RSAENC" => some .rsaenc
  | "RSADEC" => some .rsadec
  | _ => none

/-- The assembler of R80 with the expansions of R81. It refuses any other operand count or kind, a register that is
not `v0` to `v7`, and a rounds value outside `0..255`. -/
def assemble (mnemonic : AsmMnemonic) (operands : List AsmOperand) : Option Instr :=
  match mnemonic, operands with
  | .modred, [.reg d, .reg a, .reg m] => do return .modred (← asmReg d) (← asmReg a) (← asmReg m)
  | .modmul, [.reg d, .reg a, .reg b, .reg m] => do
    return .modmul (← asmReg d) (← asmReg a) (← asmReg b) (← asmReg m)
  | .modexp, [.reg d, .reg b, .reg e, .reg m] => do
    return .modexp (← asmReg d) (← asmReg b) (← asmReg e) (← asmReg m)
  | .modinv, [.reg d, .reg a, .reg n] => do return .modinv (← asmReg d) (← asmReg a) (← asmReg n)
  | .fermat2, [.reg d, .reg p] => do return .fermat2 (← asmReg d) (← asmReg p)
  | .mrround, [.reg d, .reg n, .reg w] => do return .mrround (← asmReg d) (← asmReg n) (← asmReg w)
  | .primetest, [.reg d, .reg n, .imm rounds] => do
    if rounds ≤ maxRounds then return .primetest (← asmReg d) (← asmReg n) rounds else none
  | .modsqr, [.reg d, .reg a, .reg m] => do
    return .modmul (← asmReg d) (← asmReg a) (← asmReg a) (← asmReg m)
  | .isprime, [.reg d, .reg n] => do return .primetest (← asmReg d) (← asmReg n) 40
  | .rsaenc, [.reg c, .reg msg, .reg e, .reg n] => do
    return .modexp (← asmReg c) (← asmReg msg) (← asmReg e) (← asmReg n)
  | .rsadec, [.reg msg, .reg c, .reg d, .reg n] => do
    return .modexp (← asmReg msg) (← asmReg c) (← asmReg d) (← asmReg n)
  | _, _ => none

end Sys2Proof
end

