-- ==== Sys2Proof/Machine/Operands.lean ====
section
/-! DEFINITION. The operand registers: limbs, whole registers, the `init` ghost bits, and the operands a command
computes with (R21 to R23, R41, R53). -/

namespace Sys2Proof.Machine

/-- `v[32k+31 : 32k]`, limb `k` of an operand (R11, R53). -/
def limbOf (x k : Nat) : Word := BitVec.ofNat 32 (x / 2 ^ (32 * k))

/-- An operand with limb `k` replaced and every other limb kept (R11, R56). -/
def setLimb (x k : Nat) (w : Word) : Nat :=
  x / 2 ^ (32 * (k + 1)) * 2 ^ (32 * (k + 1)) + w.toNat * 2 ^ (32 * k) + x % 2 ^ (32 * k)

/-- `V[i]` (R11). -/
def State.reg (s : State) (i : Reg) : Nat := s.v[i]

/-- `init[i][k]` (R23). -/
def State.initBit (s : State) (i : Reg) (k : Nat) : Bool := s.init[i].getLsbD k

/-- Every limb of `Vi` counts as loaded (R23). -/
def State.loaded (s : State) (i : Reg) : Bool := (List.range s.build.limbs).all (fun k => s.initBit i k)

/-- The ghost bits of a register whose limbs are all loaded: bits `0` to `LIMBS-1` (R23). -/
def allLoaded (b : Build) : BitVec 128 := BitVec.ofNat 128 (2 ^ b.limbs - 1)

/-- A free value in `[0, 2^W)`, the unspecified contents of an operand register (R23, R145). -/
def anyOperand (b : Build) (n : Nat) : Nat := Config.freeOperand n % 2 ^ b.width

/-- Writing limb `k` of `Vi` and marking it loaded (R23, R56). -/
def State.writeLimb (s : State) (i : Reg) (k : Nat) (w : Word) : State :=
  { s with v := s.v.set i (setLimb (s.reg i) k w)
           init := s.init.set i (s.init[i] ||| BitVec.twoPow 128 k) }

/-- The operand in field `ra` as the engine sees it: the snapshot of the in-flight command (R41). With nothing in
flight, where `step` never runs a command, it is the register itself (log 10). -/
def State.operandA (s : State) (ra : Reg) : Nat :=
  match s.inflight with
  | some f => f.a
  | none => s.reg ra

/-- The operand in field `rb`, as `State.operandA`. -/
def State.operandB (s : State) (rb : Reg) : Nat :=
  match s.inflight with
  | some f => f.b
  | none => s.reg rb

/-- The operand in field `rm`, as `State.operandA`. -/
def State.operandM (s : State) (rm : Reg) : Nat :=
  match s.inflight with
  | some f => f.m
  | none => s.reg rm

end Sys2Proof.Machine
end

