-- ==== Sys2Proof/Machine/Ops.lean ====
section
/-! DEFINITION. The operations every command shares: submission and acceptance (R141), the end of a command with a
result (R142), with an error (R143) or by an abort (R145), and reset (R165). -/

namespace Sys2Proof.Machine

/-! ## The end of a command: what the machine has for an exception (R149) -/

/-- The in-flight command ends with an outcome code: BUSY falls, DONE rises, ERRCODE records the code, and the hidden
state of the command is gone (R42, R149). -/
def State.endCommand (s : State) (code : BitVec 4) : State :=
  { s with inflight := none, draws := [], entWords := [], done := true, errCode := code }

/-- `raise E`: nothing but the end of the command (R143). -/
def State.raise (s : State) (e : ErrorCode) : State := s.endCommand e.code

/-- `complete_ok(val)`: the destination register is written and counts as loaded, in one step with the end of the
command (R142). -/
def State.completeOk (s : State) (rd : Reg) (val : Nat) : State :=
  { s.endCommand 0 with v := s.v.set rd val, init := s.init.set rd (allLoaded s.build) }

/-- `PRED <- res; complete_ok(res)` of a predicate command (R34, R142). -/
def State.completePred (s : State) (rd : Reg) (res : Bool) : State :=
  { s.completeOk rd res.toNat with pred := res }

/-! ## Submission (R141) -/

/-- Acceptance of a legal word: the in-flight command with its snapshots, CMDLAST, DONE and ERRCODE cleared (R41,
R141). -/
def State.accept (s : State) (w : Word) : State :=
  { s with cmdLast := w
           inflight := some ⟨w, s.reg (raField w), s.reg (rbField w), s.reg (rmField w)⟩
           draws := []
           entWords := []
           done := false
           errCode := 0 }

/-- Refusal of an illegal word (R77, R141). -/
def State.refuse (s : State) (w : Word) : State :=
  { s with cmdLast := w, done := true, errCode := ErrorCode.code .illegalCmd }

/-- `submit(w)`, the effect of a host write to CMD, with the model fault where R141 has it (R11, R13, R23, R141, R146;
log 8). -/
def State.submit (s : State) (w : Word) : Result :=
  if s.busy then .next s.overrun
  else match decode w with
    | .error _ => .next (s.refuse w)
    | .ok i => if i.reads.all s.loaded then .next (s.accept w) else .fault .uninitOperand

/-! ## Abort (R145) -/

/-- `abort()`: nothing when idle; else the command ends with ABORTED, its destination holds any value and counts as not
loaded (R145). The value is a free value (log 3). -/
def State.abort (s : State) : State :=
  match s.inflight with
  | none => s
  | some f =>
    { s.raise .aborted with v := s.v.set (rdField f.word) (anyOperand s.build s.fresh)
                            init := s.init.set (rdField f.word) 0
                            fresh := s.fresh + 1 }

/-! ## Reset (R165, R166) -/

/-- The assertion of `rst_n`: the reset state, held until the pin is released. The operand registers are not
initialised: their contents are free values (R23, R165; log 2). What the agents do next is not the block's to clear. -/
def State.assertReset (s : State) : State :=
  { State.resetOf s.build with v := Vector.ofFn (fun i : Fin 8 => anyOperand s.build (s.fresh + i.val))
                               rstN := false
                               inputs := s.inputs
                               fresh := s.fresh + 8 }

/-- Driving the pin `rst_n` (R165, R167). -/
def State.drivePin (s : State) (level : Bool) : State :=
  if level then { s with rstN := true } else s.assertReset

/-! ## What the engine fetches -/

/-- The decoded in-flight command; `none` while the engine is idle (R41). -/
def State.command (s : State) : Option (Except Illegal Instr) := s.inflight.map (fun f => decode f.word)

/-- The rest of the inputs, the next one taken. -/
def State.withInputs (s : State) (rest : List Input) : State := { s with inputs := rest }

end Sys2Proof.Machine
end

