-- ==== Sys2Proof/Machine/Exponentiation.lean ====
section
/-! DEFINITION. The modular exponentiation unit: the iterative algorithm of R101, the source's recursive form of R102,
and MODEXP (41_modexp.md). -/

namespace Sys2Proof.Machine

/-- The loop of R101: while `k > 0`, multiply the accumulator when `k` is odd, square `x`, halve `k`. `fuel` bounds the
number of rounds; `k` rounds are always enough. -/
def modexpLoop (m : Nat) : (fuel acc x k : Nat) → Nat
  | 0, acc, _, _ => acc
  | fuel + 1, acc, x, k =>
    if k = 0 then acc
    else modexpLoop m fuel (if k % 2 = 1 then acc * x % m else acc) (x * x % m) (k / 2)

/-- `modexp(b, e, m)` of R101. -/
def modexp (b e m : Nat) : Nat := modexpLoop m e (1 % m) (b % m) e

/-- The recursion of R102: halve the exponent, square, multiply by the base once more if it is odd. `fuel` bounds the
depth; `e` levels are always enough. The machine does not run it (R102). -/
def powRecLoop (b m : Nat) : (fuel e : Nat) → Nat
  | 0, _ => 1
  | fuel + 1, e =>
    if e = 0 then 1
    else
      let h := powRecLoop b m fuel (e / 2)
      let sq := h * h % m
      if e % 2 = 1 then sq * b % m else sq

/-- `pow_rec(b, e, m)` of R102. -/
def powRec (b e m : Nat) : Nat := powRecLoop b m e e

/-- MODEXP: `(b ** e) mod m` by the algorithm of R101, BAD_MODULUS when `m = 0` (R100). -/
def execModexp (rd ra rb rm : Reg) (s : State) : Result :=
  let b := s.operandA ra
  let e := s.operandB rb
  let m := s.operandM rm
  if m = 0 then .next (s.raise .badModulus) else .next (s.completeOk rd (modexp b e m))

end Sys2Proof.Machine
end

