-- ==== Sys2Proof/Machine/Inverse.lean ====
section
/-! DEFINITION. The modular inverse unit: the extended Euclidean algorithm and MODINV (43_modinv.md). -/

namespace Sys2Proof.Machine

/-- The loop of R131 on `(r, newr)` and the Bézout coefficients `(t, newt)`: until `newr = 0`, with
`q = r // newr`, `(t, newt) <- (newt, t - q*newt)` and `(r, newr) <- (newr, r - q*newr)`. `fuel` bounds the number of
rounds; `newr` strictly decreases, so `newr` rounds are always enough (R178). -/
def euclidLoop : (fuel r newr : Nat) → (t newt : Int) → Nat × Int
  | 0, r, _, t, _ => (r, t)
  | fuel + 1, r, newr, t, newt =>
    if newr = 0 then (r, t)
    else
      let q := r / newr
      euclidLoop fuel newr (r - q * newr) newt (t - (q : Int) * newt)

/-- `ext_euclid(a, n)` of R131, from `t = 0, newt = 1, r = n, newr = a`. -/
def extEuclid (a n : Nat) : Nat × Int := euclidLoop a n a 0 1

/-- The normalisation of R130 and R132: `n` is added if `t` is negative, then `t mod n`. -/
def normalise (t : Int) (n : Nat) : Nat := ((if t < 0 then t + (n : Int) else t) % (n : Int)).toNat

/-- MODINV: BAD_MODULUS when `n = 0`, NOT_INVERTIBLE when the Euclid loop ends with a remainder above 1, else the
inverse of `a` in `[0, n)` (R130, R146). -/
def execModinv (rd ra rm : Reg) (s : State) : Result :=
  let a := s.operandA ra
  let n := s.operandM rm
  if n = 0 then .next (s.raise .badModulus)
  else
    let gt := extEuclid a n
    if 1 < gt.1 then .next (s.raise .notInvertible)
    else .next (s.completeOk rd (normalise gt.2 n))

end Sys2Proof.Machine
end

