-- ==== Sys2Proof/Machine/Primality.lean ====
section
/-! DEFINITION. The primality unit: FERMAT2, MRROUND, PRIMETEST, and the entropy port (42_primality.md, R26). -/

namespace Sys2Proof.Machine

/-! ## Shared definitions (R110, R111, R114) -/

/-- Repeated halving while `s` is even (R110). `fuel` bounds the number of halvings; `s` of them are always enough. -/
def halveLoop : (fuel r s : Nat) → Nat × Nat
  | 0, r, s => (r, s)
  | fuel + 1, r, s => if s % 2 = 0 then halveLoop fuel (r + 1) (s / 2) else (r, s)

/-- `decompose(n)`: `(r, s)` with `n - 1 = 2^r * s` and `s` odd, for odd `n >= 3` (R110). -/
def decompose (n : Nat) : Nat × Nat := halveLoop (n - 1) 0 (n - 1)

/-- The squarings of R111: up to `count` more, passing as soon as `x` is `n - 1`. -/
def squareLoop (n : Nat) : (count x : Nat) → Bool
  | 0, _ => false
  | count + 1, x =>
    let y := x * x % n
    if y = n - 1 then true else squareLoop n count y

/-- `mr_round(n, r, s, a)`, `true` for PASS (R111). -/
def mrRound (n r s a : Nat) : Bool :=
  let x := modexp a s n
  if x = 1 ∨ x = n - 1 then true else squareLoop n (r - 1) x

/-- `precheck(n)`: the answer for small and even `n`, `none` for CONTINUE (R114, R115). -/
def precheck (n : Nat) : Option Bool :=
  if n = 2 ∨ n = 3 then some true
  else if n % 2 = 0 then some false
  else if n = 1 then some false
  else none

/-- A witness of the range `[2, n - 2]` (R111, R118). -/
def witnessInRange (n a : Nat) : Bool := decide (2 ≤ a) && decide (a ≤ n - 2)

/-! ## FERMAT2 -/

/-- FERMAT2: whether `2^(p-1) mod p` is 1, BAD_MODULUS when `p = 0` (R112). -/
def execFermat2 (rd ra : Reg) (s : State) : Result :=
  let p := s.operandA ra
  if p = 0 then .next (s.raise .badModulus)
  else .next (s.completePred rd (decide (modexp 2 (p - 1) p = 1)))

/-! ## MRROUND -/

/-- MRROUND: `precheck`, then the witness range (BAD_OPERAND), then one round (R116). -/
def execMrround (rd ra rb : Reg) (s : State) : Result :=
  let n := s.operandA ra
  let a := s.operandB rb
  match precheck n with
  | some res => .next (s.completePred rd res)
  | none =>
    if witnessInRange n a then
      let rs := decompose n
      .next (s.completePred rd (mrRound n rs.1 rs.2 a))
    else .next (s.raise .badOperand)

/-! ## PRIMETEST -/

/-- The rounds of R119 on the witnesses drawn so far: the first failing round gives 0, no round left gives 1, and
`none` says that a witness is still needed (R117, R179). -/
def testRounds (n r s : Nat) : (rounds : Nat) → (draws : List Nat) → Option Bool
  | 0, _ => some true
  | _ + 1, [] => none
  | rounds + 1, a :: draws => if mrRound n r s a then testRounds n r s rounds draws else some false

/-- The result of PRIMETEST on the witnesses drawn so far; `none` while it needs another (R119). -/
def primetestResult (n rounds : Nat) (draws : List Nat) : Option Bool :=
  match precheck n with
  | some res => some res
  | none =>
    let rs := decompose n
    testRounds n rs.1 rs.2 rounds draws

/-- PRIMETEST: the completion with the test's result; while a witness is still needed the engine's step is not enabled
and nothing changes (R119, R158, R179). -/
def execPrimetest (rd ra : Reg) (rounds : Nat) (s : State) : Result :=
  match primetestResult (s.operandA ra) rounds s.draws with
  | some res => .next (s.completePred rd res)
  | none => .next s

/-! ## The entropy port (R26, R118) -/

/-- `ent_req`: a PRIMETEST is in flight and still needs a witness; 0 during reset (R26, R165). -/
def State.entReq (s : State) : Bool :=
  match s.inflight with
  | none => false
  | some f =>
    match decode f.word with
    | .ok (.primetest _ _ rounds) => s.rstN && (primetestResult f.a rounds s.draws).isNone
    | _ => false

/-- The entropy source offers a word: it passes while `ent_req = 1` (R26), and joins the words taken for this draw. When
the method `WITNESS_DRAW` makes a witness of them, the witness is drawn and the words are used up; a value outside
`[2, n - 2]`, which no method may give, is no witness (R118; log 5). -/
def State.entropyTurn (method : WitnessDraw) (word : Word) (s : State) : State :=
  match s.inflight with
  | none => s
  | some f =>
    if s.entReq then
      match (method f.a (s.entWords ++ [word])).filter (witnessInRange f.a) with
      | some a => { s with draws := s.draws ++ [a], entWords := [] }
      | none => { s with entWords := s.entWords ++ [word] }
    else s

/-- The input by which a platform whose method is `method` offers `word` in the state `s` (R8, R26, R118). -/
def State.entropyInput (method : WitnessDraw) (s : State) (word : Word) : Input :=
  .entropy word (match s.inflight with
    | some f => method f.a (s.entWords ++ [word])
    | none => none)

end Sys2Proof.Machine
end

