-- ==== Sys2Proof/Machine/Reduction.lean ====
section
/-! DEFINITION. The modular reduction and multiplication unit: MODRED and MODMUL (40_modred_modmul.md). -/

namespace Sys2Proof.Machine

/-- MODRED: `a mod m`, BAD_MODULUS when `m = 0` (R90). -/
def execModred (rd ra rm : Reg) (s : State) : Result :=
  let a := s.operandA ra
  let m := s.operandM rm
  if m = 0 then .next (s.raise .badModulus) else .next (s.completeOk rd (a % m))

/-- MODMUL: `(a * b) mod m`, the product exact, BAD_MODULUS when `m = 0` (R92, R93). -/
def execModmul (rd ra rb rm : Reg) (s : State) : Result :=
  let a := s.operandA ra
  let b := s.operandB rb
  let m := s.operandM rm
  if m = 0 then .next (s.raise .badModulus) else .next (s.completeOk rd (a * b % m))

end Sys2Proof.Machine
end

