-- ==== Sys2Proof/Machine/Dispatch.lean ====
section
/-! DEFINITION. The engine's completion step of a command (R142, R143, R158): one arm per constructor of Instr. -/

namespace Sys2Proof.Machine

def exec (i : Instr) (s : State) : Host.Outcome State Fault Refusal :=
  match i with
  | .modred rd ra rm => Sys2Proof.Machine.execModred rd ra rm s
  | .modmul rd ra rb rm => Sys2Proof.Machine.execModmul rd ra rb rm s
  | .modexp rd ra rb rm => Sys2Proof.Machine.execModexp rd ra rb rm s
  | .modinv rd ra rm => Sys2Proof.Machine.execModinv rd ra rm s
  | .fermat2 rd ra => Sys2Proof.Machine.execFermat2 rd ra s
  | .mrround rd ra rb => Sys2Proof.Machine.execMrround rd ra rb s
  | .primetest rd ra rounds => Sys2Proof.Machine.execPrimetest rd ra rounds s

end Sys2Proof.Machine
end

