-- ==== Sys2Proof/Machine/Engine.lean ====
section
/-! DEFINITION. The engine's turn (R158). -/

namespace Sys2Proof.Machine

/-- The engine's turn: the completion of the in-flight command; nothing happens while the engine is idle or the block
is held in reset (R158, R165). -/
def State.engineTurn (s : State) : Result :=
  if !s.rstN then .next s
  else match s.command with
    | none => .next s
    | some (.ok i) => exec i s
    | some (.error _) => .fault .illegalInFlight

end Sys2Proof.Machine
end

