-- ==== Sys2Proof/Machine/HostPort.lean ====
section
/-! DEFINITION. The host port: the register map, MemRead, MemWrite, the admitted transactions (20_memory.md), the
platform's addresses, and the host notation of R82 and R83 as inputs. -/

namespace Sys2Proof.Machine

/-! ## The register map (R52, R53) -/

/-- What an aligned offset names (R52). -/
inductive Target where
  | id
  | param
  | ctrl
  | status
  | irqen
  | cmd
  | reserved
  | window (i : Reg) (k : Nat)
deriving DecidableEq, Repr

/-- The register map: offsets from `0x1000` are the operand window with `i = off[11:9]`, `k = off[8:2]` (R52, R53). -/
def targetOf (off : Offset) : Target :=
  if off.getLsbD 12 then .window (off.extractLsb' 9 3).toFin (off.extractLsb' 2 7).toNat
  else match off.toNat with
    | 0x000 => .id
    | 0x004 => .param
    | 0x008 => .ctrl
    | 0x00C => .status
    | 0x010 => .irqen
    | 0x014 => .cmd
    | _ => .reserved

/-! ## MemRead (R54, R55) -/

/-- Reading limb `k` of `Vi` (R54): any value while busy; else the limb, any value if it was never written, and 0
above the operand. "Any value" is a free value (log 4). -/
def State.windowRead (s : State) (i : Reg) (k : Nat) : Word :=
  if s.busy then Config.freeWord s.fresh
  else if k < s.build.limbs then
    if s.initBit i k then limbOf (s.reg i) k else Config.freeWord s.fresh
  else 0

/-- `MemRead(off, 4)` (R55). -/
def State.memRead (s : State) (off : Offset) : Word :=
  match targetOf off with
  | .id => idWord
  | .param => paramWord s.build
  | .ctrl => 0
  | .status => s.statusWord
  | .irqen => s.irqenWord
  | .cmd => s.cmdLast
  | .reserved => 0
  | .window i k => s.windowRead i k

/-! ## MemWrite (R56) -/

/-- A host write to limb `k` of `Vi`: discarded while busy; ignored above the operand (R53, R56). -/
def State.windowWrite (s : State) (i : Reg) (k : Nat) (w : Word) : State :=
  if s.busy then s.overrun
  else if k < s.build.limbs then s.writeLimb i k w
  else s

/-- `MemWrite(off, 4, v)` (R56). -/
def State.memWrite (s : State) (off : Offset) (w : Word) : Result :=
  match targetOf off with
  | .id => .next s
  | .param => .next s
  | .ctrl => .next (if w.getLsbD 0 then s.abort else s)
  | .status => .next (s.statusWrite w)
  | .irqen => .next (s.irqenWrite w)
  | .cmd => s.submit w
  | .reserved => .next s
  | .window i k => .next (s.windowWrite i k w)

/-! ## Transactions (R50, R57) -/

/-- Only aligned 32-bit transactions, writes with all strobes set (R57). -/
def Transaction.admitted (t : Transaction) : Bool :=
  t.size == 4 && t.off.extractLsb' 0 2 == 0 && (t.dir == .read || t.strobes == 0xF#4)

/-- The answer to a transaction that is not admitted: ERR, and a read returns 0 (R57). -/
def Transaction.errAnswer (t : Transaction) : Answer :=
  ⟨.err, if t.dir = .read then some 0 else none⟩

/-- The answer is put on the host port; the index of free values moves on, used or not (log 4). -/
def State.reply (s : State) (a : Answer) : State := { s with answer := some a, fresh := s.fresh + 1 }

/-- The answer of an admitted write, after its effect (R56). -/
def replyWrite : Result → Result
  | .next s => .next (s.reply ⟨.ok, none⟩)
  | .fault f => .fault f
  | .refused r => .refused r

/-- One host transaction (R55, R56, R57); while `rst_n = 0` the spec gives it no meaning (R165). -/
def State.hostTurn (s : State) (t : Transaction) : Result :=
  if !s.rstN then .fault .accessInReset
  else if !t.admitted then .next (s.reply t.errAnswer)
  else match t.dir with
    | .read => .next (s.reply ⟨.ok, some (s.memRead t.off)⟩)
    | .write => replyWrite (s.memWrite t.off t.wdata)

/-! ## The platform's addresses (R51) -/

/-- `off = address - MAE_BASE` for an address in the block's 8 KiB; another address does not reach the block (R51). -/
def offsetOf (b : Build) (address : Nat) : Option Offset :=
  if b.base ≤ address ∧ address < b.base + 0x2000 then some (BitVec.ofNat 13 (address - b.base)) else none

/-- A host access at a platform address, as the block sees it: the same transaction at the address's offset, or nothing
(R50, R51). -/
def hostAt (b : Build) (address : Nat) (t : Transaction) : Option Input :=
  (offsetOf b address).map (fun off => .host { t with off := off })

/-! ## The host notation (R82, R83) -/

/-- `W32 off, value` (R82). -/
def hostW32 (off : Offset) (value : Word) : Input := .host ⟨.write, off, 4, value, 0xF#4⟩

/-- `R32 off` (R82). -/
def hostR32 (off : Offset) : Input := .host ⟨.read, off, 4, 0, 0xF#4⟩

/-- `CMD <command>` (R82). -/
def hostCmd (i : Instr) : Input := hostW32 0x014 (encode i)

/-- `ACK` (R82, R151). -/
def hostAck : Input := hostW32 0x00C 2

/-- `ABORT` (R82). -/
def hostAbort : Input := hostW32 0x008 1

/-- The offset of limb `k` of `Vi`, `0x1000 + 0x200*i + 4*k` (R53). -/
def windowOffset (i : Reg) (k : Nat) : Offset := BitVec.ofNat 13 (0x1000 + 0x200 * i.val + 4 * k)

/-- `LDV vi, value`: the writes of all limbs, limb 0 first (R83). -/
def hostLdv (b : Build) (i : Reg) (value : Nat) : List Input :=
  (List.range b.limbs).map (fun k => hostW32 (windowOffset i k) (limbOf value k))

/-- `RDV vi`: the reads of all limbs, limb 0 first (R83). -/
def hostRdv (b : Build) (i : Reg) : List Input :=
  (List.range b.limbs).map (fun k => hostR32 (windowOffset i k))

end Sys2Proof.Machine
end

