-- ==== Sys2Proof/Machine/Step.lean ====
section
/-! DEFINITION. One atomic step of the block (R62, R158): the next input says which agent moves. -/

namespace Sys2Proof.Machine

/-- One step: the next input is taken and its agent moves; with no input left the engine moves (R62, R158, R180;
log 6). -/
def step (s : State) : Host.Outcome State Fault Refusal :=
  match s.inputs with
  | [] => s.engineTurn
  | .host t :: rest => (s.withInputs rest).hostTurn t
  | .engine :: rest => (s.withInputs rest).engineTurn
  | .entropy word made :: rest => .next ((s.withInputs rest).entropyTurn (fun _ _ => made) word)
  | .resetPin level :: rest => .next ((s.withInputs rest).drivePin level)

/-- The state in which the next step runs the command word `w`: the word is in flight as after its acceptance and the
engine moves next. A word that is no command is never in flight: the next step is the host's write of it to CMD, which
refuses it (R77, R141; log 7). -/
def State.withFetchWord (s : State) (nbits w : Nat) : State :=
  let word := BitVec.ofNat 32 (w % 2 ^ nbits)
  match decode word with
  | .ok _ => { s.accept word with rstN := true, inputs := .engine :: s.inputs }
  | .error _ => { s with rstN := true, inflight := none, inputs := hostW32 0x014 word :: s.inputs }

end Sys2Proof.Machine
end

