-- ==== Sys2Proof/Safety.lean ====
section
/-! DEFINITION. The terms the statements use: what a completion and an error leave, the mathematics a result is compared
with, the invariant of the machine, and which steps a run may take safely. -/

namespace Sys2Proof.Machine

/-! ## Turns -/

/-- The engine moves next: its turn is the next input, or there is no input left. -/
def State.engineNext (s : State) : Bool := s.inputs.head?.getD .engine == .engine

/-- The state an agent's turn starts from: the next input taken. -/
def State.atTurn (s : State) : State := s.withInputs s.inputs.tail

/-- The next step is the host's admitted write of `w` to offset `off`, with the block out of reset. -/
def State.hostWrites (s : State) (off : Offset) (w : Word) : Prop :=
  s.rstN = true ∧ ∃ t rest, s.inputs = .host t :: rest ∧ t.admitted = true ∧ t.dir = .write ∧ t.off = off ∧ t.wdata = w

/-- The next step is the host's admitted read of offset `off`, with the block out of reset. -/
def State.hostReads (s : State) (off : Offset) : Prop :=
  s.rstN = true ∧ ∃ t rest, s.inputs = .host t :: rest ∧ t.admitted = true ∧ t.dir = .read ∧ t.off = off

/-- The next step is the assertion of `rst_n`. -/
def State.resetNext (s : State) : Prop := ∃ rest, s.inputs = .resetPin false :: rest

/-! ## What a step keeps -/

/-- `Vi` and its ghost bits are the same. -/
def SameReg (s t : State) (i : Reg) : Prop := t.reg i = s.reg i ∧ t.init[i] = s.init[i]

/-- The state that no command touches: the build, OVR, IRQEN, CMDLAST, the reset pin, and the model's own fields. -/
def SameControl (s t : State) : Prop :=
  t.build = s.build ∧ t.ovr = s.ovr ∧ t.doneIE = s.doneIE ∧ t.ovrIE = s.ovrIE ∧ t.cmdLast = s.cmdLast ∧ t.rstN = s.rstN
    ∧ t.answer = s.answer ∧ t.inputs = s.inputs ∧ t.fresh = s.fresh

/-- The outcome of a command is recorded: BUSY 0, DONE 1, ERRCODE `code`, no hidden state left (R42, R140, R149). -/
def Ended (t : State) (code : BitVec 4) : Prop :=
  t.busy = false ∧ t.done = true ∧ t.errCode = code ∧ t.draws = [] ∧ t.entWords = []

/-- A successful completion with result `val` in `V[rd]`, all of whose limbs count as loaded (for a legal width, R8);
every other register is kept (R142, R23). PRED is stated beside it. -/
def Completed (s t : State) (rd : Reg) (val : Nat) : Prop :=
  t.reg rd = val ∧ (s.build.legal = true → t.loaded rd = true) ∧ (∀ r, r ≠ rd → SameReg s t r) ∧ Ended t 0 ∧ SameControl s t

/-- An error completion: every operand register and PRED are kept (R143, R144). -/
def Failed (s t : State) (e : ErrorCode) : Prop :=
  (∀ r, SameReg s t r) ∧ t.pred = s.pred ∧ Ended t e.code ∧ SameControl s t

/-- All the block holds but the model's own `answer`, `inputs` and `fresh` is the same. -/
def SameBlock (s t : State) : Prop :=
  t = { s with answer := t.answer, inputs := t.inputs, fresh := t.fresh }

/-- The state with other values of the platform's parameters (R8). -/
def State.onPlatform (s : State) (base : Nat) (bus : BusProtocol) (entropySecure : Bool) : State :=
  { s with build := { s.build with base := base, bus := bus, entropySecure := entropySecure } }

/-! ## The mathematics the results are compared with -/

/-- `n` passes a Miller-Rabin round with witness `a`: with `n - 1 = 2^r * s` and `s` odd, `a^s mod n` is 1 or one of
`a^(2^j * s) mod n`, `j < r`, is `n - 1` (R110, R111). -/
def StrongPass (n a : Nat) : Prop :=
  ∃ r s, n - 1 = 2 ^ r * s ∧ s % 2 = 1 ∧ (a ^ s % n = 1 ∨ ∃ j, j < r ∧ a ^ (2 ^ j * s) % n = n - 1)

/-- An odd `n >= 5`, on which MRROUND and PRIMETEST run rounds (R114). -/
def RoundsRun (n : Nat) : Prop := n % 2 = 1 ∧ 5 ≤ n

/-- What `precheck` answers for the other `n`: only 2 and 3 are prime (R114, R115). -/
def SmallAnswer (n : Nat) : Bool := decide (n = 2 ∨ n = 3)

/-! ## The invariant -/

/-- Every operand register holds a value in `[0, 2^W)` (R7, R21). -/
def OperandsInRange (s : State) : Prop := ∀ i : Reg, s.reg i < 2 ^ s.build.width

/-- `BUSY = 1` implies `DONE = 0` and `ERRCODE = 0`; `ERRCODE != 0` implies `DONE = 1`; codes 6 to 15 are never
produced (R36). -/
def FlagsConsistent (s : State) : Prop :=
  (s.busy = true → s.done = false ∧ s.errCode = 0) ∧ (s.errCode ≠ 0 → s.done = true) ∧ s.errCode.toNat ≤ 5

/-- There are ghost bits for the limbs of an operand only (R20, R23). -/
def MarksWithinOperand (s : State) : Prop := ∀ (i : Reg) (k : Nat), s.build.limbs ≤ k → s.initBit i k = false

/-- The in-flight word is a command, it is `CMDLAST`, its sources are loaded, and its snapshots equal the registers'
current contents (R39, R41, R141). -/
def InFlightFaithful (s : State) : Prop :=
  ∀ f, s.inflight = some f →
    (∃ i, decode f.word = .ok i ∧ i.reads.all s.loaded = true) ∧ f.word = s.cmdLast ∧ f.a = s.reg (raField f.word)
      ∧ f.b = s.reg (rbField f.word) ∧ f.m = s.reg (rmField f.word)

/-- Only an in-flight PRIMETEST has drawn witnesses, each in `[2, n - 2]` and at most one per round (R117, R118, R42). -/
def DrawsFaithful (s : State) : Prop :=
  s.draws ≠ [] →
    ∃ f rd ra rounds, s.inflight = some f ∧ decode f.word = .ok (.primetest rd ra rounds) ∧ RoundsRun f.a
      ∧ s.draws.length ≤ rounds ∧ ∀ a ∈ s.draws, 2 ≤ a ∧ a ≤ f.a - 2

/-- Entropy words are held only while an in-flight PRIMETEST still needs the witness they are for (R26, R42). -/
def WordsFaithful (s : State) : Prop :=
  s.entWords ≠ [] →
    ∃ f rd ra rounds, s.inflight = some f ∧ decode f.word = .ok (.primetest rd ra rounds)
      ∧ primetestResult f.a rounds s.draws = none

/-- While `rst_n = 0` the block is held in the reset state (R165, R166). -/
def HeldInReset (s : State) : Prop :=
  s.rstN = false →
    s.inflight = none ∧ s.statusWord = 0 ∧ s.irqenWord = 0 ∧ s.cmdLast = 0 ∧ s.draws = [] ∧ s.entWords = []
      ∧ ∀ (i : Reg) (k : Nat), s.initBit i k = false

/-- The invariant of the machine, for a legal build (R8, R51). -/
structure Inv (s : State) : Prop where
  build : s.build.legal = true
  operands : OperandsInRange s
  flags : FlagsConsistent s
  marks : MarksWithinOperand s
  inflight : InFlightFaithful s
  draws : DrawsFaithful s
  words : WordsFaithful s
  held : HeldInReset s

/-! ## Safe steps -/

/-- The two cases the spec leaves without meaning (R13): a host access during reset (R165), and the acceptance of a
command with a source register that is not loaded (R23). -/
def NoMeaning (s : State) (f : Fault) : Prop :=
  (f = .accessInReset ∧ s.rstN = false ∧ ∃ t rest, s.inputs = .host t :: rest)
    ∨ (f = .uninitOperand ∧ ∃ w i, s.hostWrites 0x014 w ∧ s.busy = false ∧ decode w = .ok i
        ∧ ∃ r ∈ i.reads, s.loaded r = false)

end Sys2Proof.Machine
end

