-- ==== Sys2Proof/Certificates/Slice0/Obligations.lean ====
section
/-! DEFINITION. The statements about the MAE for the provers, taken from the numbered rules of spec/. -/

section
open Sys2Proof Sys2Proof.Machine

/-! ## Encoding (30_encoding.md) -/

/-- Decoding the encoding of a well-formed command gives it back: no field of R71 is dropped or moved. -/
def Obligations.DecodeOfEncodeIsIdentity : Prop :=
  ∀ i : Instr, i.wf = true → decode (encode i) = .ok i

/-- A word that decodes is the encoding of its command, its unused fields zero: every word is one command or none. -/
def Obligations.EncodeOfDecodeIsIdentity : Prop :=
  ∀ (w : Word) (i : Instr), decode w = .ok i → encode i = w ∧ i.wf = true

/-- R77: the illegal words are exactly those with an illegal opcode, a reserved bit set or an unused field set, the
all-zero word among them; the host's write of one to CMD while the engine is idle is refused with ILLEGAL_CMD. -/
def Obligations.IllegalWordsRefused : Prop :=
  (∀ w : Word, (∃ e, decode w = .error e) ↔
      opField w = 0 ∨ 8 ≤ (opField w).toNat
        ∨ w.getLsbD 11 = true ∨ w.getLsbD 15 = true ∨ w.getLsbD 19 = true ∨ w.getLsbD 23 = true
        ∨ ((opField w).toNat ∈ [1, 4] ∧ (rbField w ≠ 0 ∨ immField w ≠ 0))
        ∨ ((opField w).toNat ∈ [2, 3] ∧ immField w ≠ 0)
        ∨ (opField w = 5 ∧ (rbField w ≠ 0 ∨ rmField w ≠ 0 ∨ immField w ≠ 0))
        ∨ (opField w = 6 ∧ (rmField w ≠ 0 ∨ immField w ≠ 0))
        ∨ (opField w = 7 ∧ (rbField w ≠ 0 ∨ rmField w ≠ 0)))
    ∧ (∃ e, decode 0 = .error e)
    ∧ ∀ (s : State) (w : Word) (e : Illegal), s.hostWrites 0x014 w → s.busy = false → decode w = .error e →
        ∃ t, step s = .next t ∧ t.done = true ∧ t.errCode = ErrorCode.code .illegalCmd ∧ t.busy = false

/-- R76 and R78: decoding is the table, written out: a word that a row accepts is that row's command with the word's
fields, a word that no row accepts is illegal, and no word is accepted by two rows (they differ in the opcode byte). The
fields are the bit ranges of R71. That no two rows accept one word is an inference the spec marks as its own (R76). -/
def Obligations.DecodeFollowsTable : Prop :=
  (∀ w : Word,
      (w &&& 0xFF8F88FF#32 = 0x00000001#32 → decode w = .ok (.modred (rdField w) (raField w) (rmField w)))
        ∧ (w &&& 0xFF8888FF#32 = 0x00000002#32 →
            decode w = .ok (.modmul (rdField w) (raField w) (rbField w) (rmField w)))
        ∧ (w &&& 0xFF8888FF#32 = 0x00000003#32 →
            decode w = .ok (.modexp (rdField w) (raField w) (rbField w) (rmField w)))
        ∧ (w &&& 0xFF8F88FF#32 = 0x00000004#32 → decode w = .ok (.modinv (rdField w) (raField w) (rmField w)))
        ∧ (w &&& 0xFFFF88FF#32 = 0x00000005#32 → decode w = .ok (.fermat2 (rdField w) (raField w)))
        ∧ (w &&& 0xFFF888FF#32 = 0x00000006#32 → decode w = .ok (.mrround (rdField w) (raField w) (rbField w)))
        ∧ (w &&& 0x00FF88FF#32 = 0x00000007#32 → decode w = .ok (.primetest (rdField w) (raField w) (immField w)))
        ∧ ((∀ row ∈ rows, row.accepts w = false) → ∃ e, decode w = .error e)
        ∧ ∀ row ∈ rows, ∀ row' ∈ rows, row.accepts w = true → row'.accepts w = true →
            row.mnemonic = row'.mnemonic ∧ opField w = opField row.matchBits)
    ∧ rows.map (fun row => (row.mnemonic, row.matchBits, row.maskBits)) =
        [("MODRED", 0x00000001#32, 0xFF8F88FF#32), ("MODMUL", 0x00000002#32, 0xFF8888FF#32),
         ("MODEXP", 0x00000003#32, 0xFF8888FF#32), ("MODINV", 0x00000004#32, 0xFF8F88FF#32),
         ("FERMAT2", 0x00000005#32, 0xFFFF88FF#32), ("MRROUND", 0x00000006#32, 0xFFF888FF#32),
         ("PRIMETEST", 0x00000007#32, 0x00FF88FF#32)]
    ∧ ∀ w : Word, (opField w).toNat = w.toNat % 2 ^ 8 ∧ (rdField w).val = w.toNat / 2 ^ 8 % 2 ^ 3
        ∧ (raField w).val = w.toNat / 2 ^ 12 % 2 ^ 3 ∧ (rbField w).val = w.toNat / 2 ^ 16 % 2 ^ 3
        ∧ (rmField w).val = w.toNat / 2 ^ 20 % 2 ^ 3 ∧ immField w = w.toNat / 2 ^ 24

/-- The seven encoding examples of R79, which the spec derives from R71, read by the decoder and written by the
encoder. -/
def Obligations.EncodingExamples : Prop :=
  ∀ p ∈ [(0x00210303#32, Instr.modexp 3 0 1 2), (0x00100304#32, Instr.modinv 3 0 1),
         (0x28000107#32, Instr.primetest 1 0 40), (0x00100202#32, Instr.modmul 2 0 0 1),
         (0x00010206#32, Instr.mrround 2 0 1), (0x00000105#32, Instr.fermat2 1 0), (0x00100201#32, Instr.modred 2 0 1)],
    decode p.1 = .ok p.2 ∧ encode p.2 = p.1

/-- R81: the pseudo-instructions expand as the table says, for every register. -/
def Obligations.PseudoInstructionsExpand : Prop :=
  ∀ a b c d : Reg,
    assemble .modsqr [.reg a.val, .reg b.val, .reg c.val] = some (.modmul a b b c)
      ∧ assemble .isprime [.reg a.val, .reg b.val] = some (.primetest a b 40)
      ∧ assemble .rsaenc [.reg a.val, .reg b.val, .reg c.val, .reg d.val] = some (.modexp a b c d)
      ∧ assemble .rsadec [.reg a.val, .reg b.val, .reg c.val, .reg d.val] = some (.modexp a b c d)

/-- What the assembler accepts has an encoding that decodes back to it (R80: it refuses a rounds value outside
`0..255` and any register but `v0` to `v7`). -/
def Obligations.AssembledCommandsEncode : Prop :=
  ∀ (m : AsmMnemonic) (ops : List AsmOperand) (i : Instr), assemble m ops = some i → decode (encode i) = .ok i

/-- A step in which the engine moves runs exactly the decoded in-flight command, from the state with the turn taken.
That the list of inputs says who moves, and the engine moves when it is empty, is the model's choice (log 6). -/
def Obligations.StepRunsInFlightCommand : Prop :=
  ∀ (s : State) (f : InFlight) (i : Instr),
    s.rstN = true → s.engineNext = true → s.inflight = some f → decode f.word = .ok i → step s = exec i s.atTurn

/-! ## The commands (files 40 to 43) -/

/-- R90: MODRED: the words that encode it (another word of its opcode is illegal), its result, its status and its
one error. -/
def Obligations.ModredReduces : Prop :=
  (∀ w : Word, w &&& 0xFF8F88FF#32 = 0x00000001#32 ↔ ∃ rd ra rm, decode w = .ok (.modred rd ra rm))
    ∧ (∀ w : Word, opField w = 0x01#8 → w &&& 0xFF8F88FF#32 ≠ 0x00000001#32 → ∃ e, decode w = .error e)
    ∧ ∀ (rd ra rm : Reg) (s : State), ∃ t, exec (.modred rd ra rm) s = .next t
        ∧ (s.operandM rm = 0 → Failed s t .badModulus)
        ∧ (s.operandM rm ≠ 0 → Completed s t rd (s.operandA ra % s.operandM rm) ∧ t.pred = s.pred)

/-- R92: MODMUL, on the exact product, with its words and its one error. -/
def Obligations.ModmulMultiplies : Prop :=
  (∀ w : Word, w &&& 0xFF8888FF#32 = 0x00000002#32 ↔ ∃ rd ra rb rm, decode w = .ok (.modmul rd ra rb rm))
    ∧ (∀ w : Word, opField w = 0x02#8 → w &&& 0xFF8888FF#32 ≠ 0x00000002#32 → ∃ e, decode w = .error e)
    ∧ ∀ (rd ra rb rm : Reg) (s : State), ∃ t, exec (.modmul rd ra rb rm) s = .next t
        ∧ (s.operandM rm = 0 → Failed s t .badModulus)
        ∧ (s.operandM rm ≠ 0 →
            Completed s t rd (s.operandA ra * s.operandB rb % s.operandM rm) ∧ t.pred = s.pred)

/-- R100: MODEXP computes the power, not only what its algorithm returns. -/
def Obligations.ModexpComputesPower : Prop :=
  (∀ w : Word, w &&& 0xFF8888FF#32 = 0x00000003#32 ↔ ∃ rd ra rb rm, decode w = .ok (.modexp rd ra rb rm))
    ∧ (∀ w : Word, opField w = 0x03#8 → w &&& 0xFF8888FF#32 ≠ 0x00000003#32 → ∃ e, decode w = .error e)
    ∧ ∀ (rd ra rb rm : Reg) (s : State), ∃ t, exec (.modexp rd ra rb rm) s = .next t
        ∧ (s.operandM rm = 0 → Failed s t .badModulus)
        ∧ (s.operandM rm ≠ 0 →
            Completed s t rd (s.operandA ra ^ s.operandB rb % s.operandM rm) ∧ t.pred = s.pred)

/-- R101: the iterative algorithm returns `(b ** e) mod m`. -/
def Obligations.IterativeExponentiationIsPower : Prop :=
  ∀ b e m : Nat, 1 ≤ m → modexp b e m = b ^ e % m

/-- R102, which the spec derives from R101: the recursive form agrees for every `e >= 1`, and for `e = 0` whenever
`m >= 2`; at `e = 0, m = 1` it returns 1 where the iterative form returns 0. -/
def Obligations.RecursiveFormAgrees : Prop :=
  (∀ b e m : Nat, 1 ≤ m → 1 ≤ e ∨ 2 ≤ m → powRec b e m = modexp b e m)
    ∧ ∀ b : Nat, powRec b 0 1 = 1 ∧ modexp b 0 1 = 0

/-- The Euclid loop of R131 returns the gcd and a Bézout coefficient of `a`, which the spec adds from general
knowledge (G6). -/
def Obligations.EuclidReturnsGcdAndBezout : Prop :=
  ∀ a n : Nat, 1 ≤ n →
    (extEuclid a n).1 = Nat.gcd a n ∧ (n : Int) ∣ (a : Int) * (extEuclid a n).2 - (Nat.gcd a n : Int)

/-- R130: MODINV writes the unique inverse in `[0, n)`, with BAD_MODULUS before
NOT_INVERTIBLE. -/
def Obligations.ModinvInverts : Prop :=
  (∀ w : Word, w &&& 0xFF8F88FF#32 = 0x00000004#32 ↔ ∃ rd ra rm, decode w = .ok (.modinv rd ra rm))
    ∧ (∀ w : Word, opField w = 0x04#8 → w &&& 0xFF8F88FF#32 ≠ 0x00000004#32 → ∃ e, decode w = .error e)
    ∧ ∀ (rd ra rm : Reg) (s : State), ∃ t, exec (.modinv rd ra rm) s = .next t
        ∧ (s.operandM rm = 0 → Failed s t .badModulus)
        ∧ (s.operandM rm ≠ 0 → Nat.gcd (s.operandA ra) (s.operandM rm) ≠ 1 → Failed s t .notInvertible)
        ∧ (s.operandM rm ≠ 0 → Nat.gcd (s.operandA ra) (s.operandM rm) = 1 →
            ∃ x, x < s.operandM rm ∧ s.operandA ra * x % s.operandM rm = 1 % s.operandM rm
              ∧ (∀ y, y < s.operandM rm → s.operandA ra * y % s.operandM rm = 1 % s.operandM rm → y = x)
              ∧ Completed s t rd x ∧ t.pred = s.pred)

/-- R112: FERMAT2 applies the formula literally. -/
def Obligations.Fermat2AppliesFormula : Prop :=
  (∀ w : Word, w &&& 0xFFFF88FF#32 = 0x00000005#32 ↔ ∃ rd ra, decode w = .ok (.fermat2 rd ra))
    ∧ (∀ w : Word, opField w = 0x05#8 → w &&& 0xFFFF88FF#32 ≠ 0x00000005#32 → ∃ e, decode w = .error e)
    ∧ ∀ (rd ra : Reg) (s : State), ∃ t, exec (.fermat2 rd ra) s = .next t
        ∧ (s.operandA ra = 0 → Failed s t .badModulus)
        ∧ (s.operandA ra ≠ 0 → 2 ^ (s.operandA ra - 1) % s.operandA ra = 1 → Completed s t rd 1 ∧ t.pred = true)
        ∧ (s.operandA ra ≠ 0 → 2 ^ (s.operandA ra - 1) % s.operandA ra ≠ 1 → Completed s t rd 0 ∧ t.pred = false)

/-- A prime `p >= 3` gives FERMAT2 = 1, an even `p` never does (R112, R113). -/
def Obligations.Fermat2PassesPrimes : Prop :=
  ∀ (rd ra : Reg) (s : State), s.operandA ra ≠ 0 →
    ∃ t, exec (.fermat2 rd ra) s = .next t ∧ t.errCode = 0
      ∧ (Nat.Prime (s.operandA ra) → 3 ≤ s.operandA ra → t.reg rd = 1)
      ∧ (s.operandA ra % 2 = 0 → t.reg rd = 0)

/-- R110, which the spec marks as derived: for odd `n >= 3`, `decompose` returns the unique `(r, s)`. -/
def Obligations.DecomposeIsUnique : Prop :=
  ∀ n : Nat, n % 2 = 1 → 3 ≤ n →
    n - 1 = 2 ^ (decompose n).1 * (decompose n).2 ∧ (decompose n).2 % 2 = 1 ∧ 1 ≤ (decompose n).1
      ∧ ∀ r s, n - 1 = 2 ^ r * s → s % 2 = 1 → (r, s) = decompose n

/-- R116: MRROUND: small and even `n` by `precheck`, a witness outside `[2, n-2]` is BAD_OPERAND, else one round. -/
def Obligations.MrroundRunsOneRound : Prop :=
  (∀ w : Word, w &&& 0xFFF888FF#32 = 0x00000006#32 ↔ ∃ rd ra rb, decode w = .ok (.mrround rd ra rb))
    ∧ (∀ w : Word, opField w = 0x06#8 → w &&& 0xFFF888FF#32 ≠ 0x00000006#32 → ∃ e, decode w = .error e)
    ∧ ∀ (rd ra rb : Reg) (s : State), ∃ t, exec (.mrround rd ra rb) s = .next t
        ∧ (¬ RoundsRun (s.operandA ra) →
            Completed s t rd (SmallAnswer (s.operandA ra)).toNat ∧ t.pred = SmallAnswer (s.operandA ra))
        ∧ (RoundsRun (s.operandA ra) → ¬ (2 ≤ s.operandB rb ∧ s.operandB rb ≤ s.operandA ra - 2) →
            Failed s t .badOperand)
        ∧ (RoundsRun (s.operandA ra) → 2 ≤ s.operandB rb → s.operandB rb ≤ s.operandA ra - 2 →
            (StrongPass (s.operandA ra) (s.operandB rb) → Completed s t rd 1 ∧ t.pred = true)
              ∧ (¬ StrongPass (s.operandA ra) (s.operandB rb) → Completed s t rd 0 ∧ t.pred = false))

/-- R119: PRIMETEST on the witnesses drawn so far. It ends with 0 at the first failing round, with 1 when every round
passed, and otherwise waits for a witness with nothing changed (log 12). -/
def Obligations.PrimetestRunsRounds : Prop :=
  (∀ w : Word, w &&& 0x00FF88FF#32 = 0x00000007#32 ↔ ∃ rd ra rounds, decode w = .ok (.primetest rd ra rounds))
    ∧ (∀ w : Word, opField w = 0x07#8 → w &&& 0x00FF88FF#32 ≠ 0x00000007#32 → ∃ e, decode w = .error e)
    ∧ ∀ (rd ra : Reg) (rounds : Nat) (s : State), ∃ t, exec (.primetest rd ra rounds) s = .next t
        ∧ (¬ RoundsRun (s.operandA ra) →
            Completed s t rd (SmallAnswer (s.operandA ra)).toNat ∧ t.pred = SmallAnswer (s.operandA ra))
        ∧ (RoundsRun (s.operandA ra) → (∃ a ∈ s.draws.take rounds, ¬ StrongPass (s.operandA ra) a) →
            Completed s t rd 0 ∧ t.pred = false)
        ∧ (RoundsRun (s.operandA ra) → (∀ a ∈ s.draws.take rounds, StrongPass (s.operandA ra) a) →
            rounds ≤ s.draws.length → Completed s t rd 1 ∧ t.pred = true)
        ∧ (RoundsRun (s.operandA ra) → (∀ a ∈ s.draws.take rounds, StrongPass (s.operandA ra) a) →
            s.draws.length < rounds → t = s)

/-- R121: with `rounds = 0` and odd `n >= 5`, PRIMETEST gives 1 without a witness, whatever `n`. -/
def Obligations.ZeroRoundsPass : Prop :=
  ∀ (rd ra : Reg) (s : State), RoundsRun (s.operandA ra) →
    (∃ t, exec (.primetest rd ra 0) s = .next t ∧ Completed s t rd 1 ∧ t.pred = true)
      ∧ ∀ f, s.inflight = some f → decode f.word = .ok (.primetest rd ra 0) → f.a = s.operandA ra → s.entReq = false

/-- The Miller-Rabin theorem for the machine (R119, R120): a prime `n >= 5` gets 1 for every sequence of witnesses in
`[2, n-2]` that is long enough, and waits with nothing changed while it is not (R158, R179). That the wait is an engine
turn that answers a next state and changes nothing is log 12. -/
def Obligations.PrimePassesEveryWitness : Prop :=
  ∀ (rd ra : Reg) (rounds : Nat) (s : State),
    Nat.Prime (s.operandA ra) → 5 ≤ s.operandA ra →
      (∀ a ∈ s.draws, 2 ≤ a ∧ a ≤ s.operandA ra - 2) →
        ∃ t, exec (.primetest rd ra rounds) s = .next t
          ∧ (rounds ≤ s.draws.length → Completed s t rd 1 ∧ t.pred = true) ∧ (s.draws.length < rounds → t = s)

/-- MRROUND's result 0 proves `n` composite for every odd `n >= 5` (R120). -/
def Obligations.RoundResultZeroMeansComposite : Prop :=
  ∀ (rd ra rb : Reg) (s t : State), RoundsRun (s.operandA ra) → exec (.mrround rd ra rb) s = .next t →
    t.errCode = 0 → t.pred = false → ¬ Nat.Prime (s.operandA ra)

/-- R119's corner case: `n = 9` gives 0 for every witness, as soon as one is drawn. -/
def Obligations.NineFailsEveryWitness : Prop :=
  ∀ (rd ra : Reg) (rounds : Nat) (s : State), s.operandA ra = 9 → 1 ≤ rounds → s.draws ≠ [] →
    (∀ a ∈ s.draws, 2 ≤ a ∧ a ≤ 7) →
      ∃ t, exec (.primetest rd ra rounds) s = .next t ∧ Completed s t rd 0 ∧ t.pred = false

/-- The frame of all seven commands (R22, R34, R142, R143): nothing but the destination register, its ghost bits, PRED
for a predicate command, and BUSY, DONE, ERRCODE can change. -/
def Obligations.CommandFrame : Prop :=
  ∀ (i : Instr) (s t : State), exec i s = .next t →
    (∀ r, r ≠ i.dest → SameReg s t r) ∧ (i.isPredicate = false → t.pred = s.pred) ∧ SameControl s t

/-- Every command but PRIMETEST ends in its one engine turn, with one of the codes 0, 2, 3, 4 (R140, R178). -/
def Obligations.CommandEndsInOneTurn : Prop :=
  ∀ (i : Instr) (s : State), (∀ rd ra rounds, i ≠ .primetest rd ra rounds) →
    ∃ t c, exec i s = .next t ∧ Ended t c ∧ c ∈ [0#4, 2#4, 3#4, 4#4]

/-- A result depends on the operand values, the witnesses and the command only: two states that agree on them end with
the same result and the same outcome, whatever ran before (R41, R105). -/
def Obligations.ResultDependsOnOperandsOnly : Prop :=
  ∀ (i : Instr) (s s' t t' : State) (f f' : InFlight), s.inflight = some f → s'.inflight = some f' → f.a = f'.a →
    f.b = f'.b → f.m = f'.m → s.draws = s'.draws → exec i s = .next t → exec i s' = .next t' →
      t.busy = t'.busy
        ∧ (t.busy = false → t.errCode = t'.errCode ∧ (t.errCode = 0 → t.reg i.dest = t'.reg i.dest)
            ∧ (t.errCode = 0 → i.isPredicate = true → t.pred = t'.pred))

/-- R103: the multiplication method is invisible: the same command in a build of the other method leaves the same
state but for the build. -/
def Obligations.MultiplicationMethodInvisible : Prop :=
  ∀ (i : Instr) (s t : State) (m : ExpMethod), exec i s = .next t →
    exec i { s with build := { s.build with expMethod := m } }
      = .next { t with build := { t.build with expMethod := m } }

/-! ## The host port (20_memory.md, 10_state.md) -/

/-- R54, R55: every admitted read outside reset answers OK with the value of the register map and changes nothing of
the block. -/
def Obligations.ReadAnswersRegisterMap : Prop :=
  ∀ (s : State) (off : Offset), s.hostReads off →
    ∃ t d, step s = .next t ∧ SameBlock s t ∧ t.inputs = s.inputs.tail ∧ t.answer = some ⟨.ok, some d⟩
      ∧ (off = 0x000 → d = 0x4D414531) ∧ (off = 0x004 → d = paramWord s.build) ∧ (off = 0x008 → d = 0)
      ∧ (off = 0x00C → ∀ k, d.getLsbD k =
          (decide (k = 0) && s.busy || decide (k = 1) && s.done || decide (k = 2) && decide (s.errCode ≠ 0)
            || decide (k = 3) && s.pred || decide (k = 4) && s.ovr || decide (8 ≤ k) && s.errCode.getLsbD (k - 8)))
      ∧ (off = 0x010 → ∀ k, d.getLsbD k = (decide (k = 0) && s.doneIE || decide (k = 1) && s.ovrIE))
      ∧ (off = 0x014 → d = s.cmdLast)
      ∧ (0x018 ≤ off.toNat → off.toNat < 0x1000 → d = 0)
      ∧ ∀ (i : Reg) (k : Nat), k < 128 → off.toNat = 0x1000 + 0x200 * i.val + 4 * k → s.busy = false →
          (k < s.build.limbs → s.initBit i k = true → d.toNat = s.reg i / 2 ^ (32 * k) % 2 ^ 32)
            ∧ (s.build.limbs ≤ k → d = 0)

/-- R28: PARAM field by field: what a read answers, constant for a build, and writes ignored. -/
def Obligations.ParamFields : Prop :=
  (∀ b : Build, b.legal = true →
      ((paramWord b).extractLsb' 0 16).toNat = b.width / 32 ∧ (paramWord b).extractLsb' 16 4 = 8#4
        ∧ ((paramWord b).getLsbD 20 = true ↔ b.expMethod = .montgomery) ∧ (paramWord b).extractLsb' 21 11 = 0#11)
    ∧ paramWord Build.standard = 0x00080040#32
    ∧ (∀ s : State, s.hostReads 0x004 → ∃ t, step s = .next t ∧ t.answer = some ⟨.ok, some (paramWord s.build)⟩)
    ∧ (∀ (s : State) (w : Word), s.hostWrites 0x004 w → ∃ t, step s = .next t ∧ SameBlock s t)
    ∧ ∀ s t : State, step s = .next t → t.build = s.build

/-- R57: a transaction that is not aligned, not 32-bit or (a write) not with all strobes is answered ERR, changes no
state, and a read returns 0. -/
def Obligations.OtherAccessesRefused : Prop :=
  ∀ (s : State) (tr : Transaction) (rest : List Input), s.rstN = true → s.inputs = .host tr :: rest →
    (tr.size ≠ 4 ∨ tr.off.toNat % 4 ≠ 0 ∨ (tr.dir = .write ∧ tr.strobes ≠ 0xF#4)) →
      ∃ t d, step s = .next t ∧ SameBlock s t ∧ t.inputs = rest ∧ t.answer = some ⟨.err, d⟩
        ∧ (tr.dir = .read → d = some 0)

/-- R27, R40: ID reads its constant and every reserved offset reads 0; both ignore writes, with an OK response and no
change to OVR or to anything else of the block. -/
def Obligations.IdAndReservedOffsets : Prop :=
  (∀ (s : State) (off : Offset) (w : Word), s.hostWrites off w →
      (off = 0x000 ∨ (0x018 ≤ off.toNat ∧ off.toNat < 0x1000)) →
        ∃ t d, step s = .next t ∧ SameBlock s t ∧ t.answer = some ⟨.ok, d⟩)
    ∧ (∀ (s : State) (off : Offset), s.hostReads off → 0x018 ≤ off.toNat → off.toNat < 0x1000 →
        ∃ t, step s = .next t ∧ SameBlock s t ∧ t.answer = some ⟨.ok, some 0⟩)
    ∧ ∀ s : State, s.hostReads 0x000 → ∃ t, step s = .next t ∧ SameBlock s t ∧ t.answer = some ⟨.ok, some 0x4D414531⟩

/-- R37: a host write to STATUS clears DONE with ERRCODE, and OVR, as its bits 1 and 4 say, and changes nothing else,
busy or not; while busy only OVR can change. A read of STATUS changes nothing. -/
def Obligations.StatusWriteClears : Prop :=
  (∀ (s : State) (w : Word), s.hostWrites 0x00C w → ∃ t, step s = .next t
      ∧ t.done = (s.done && !w.getLsbD 1) ∧ t.errCode = (if w.getLsbD 1 then 0 else s.errCode)
      ∧ t.ovr = (s.ovr && !w.getLsbD 4)
      ∧ (FlagsConsistent s → s.busy = true → t.done = s.done ∧ t.errCode = s.errCode)
      ∧ SameBlock { s with done := t.done, errCode := t.errCode, ovr := t.ovr } t)
    ∧ ∀ (s : State), s.hostReads 0x00C → ∃ t, step s = .next t ∧ SameBlock s t

/-- R38, R150: a write to IRQEN sets the two enables and nothing else, busy or not, and `irq` follows in the same
step. -/
def Obligations.IrqenWriteDrivesIrq : Prop :=
  (∀ b : Build, (State.resetOf b).memRead 0x010 = 0) ∧ ∀ (s : State) (w : Word), s.hostWrites 0x010 w → ∃ t, step s = .next t
    ∧ t.doneIE = w.getLsbD 0 ∧ t.ovrIE = w.getLsbD 1 ∧ SameBlock { s with doneIE := t.doneIE, ovrIE := t.ovrIE } t
    ∧ (t.irq = true ↔ (s.done = true ∧ w.getLsbD 0 = true) ∨ (s.ovr = true ∧ w.getLsbD 1 = true))
    ∧ (∀ k, (t.memRead 0x010).getLsbD k = (decide (k < 2) && w.getLsbD k))

/-- R150: `irq` is what STATUS and IRQEN read: bit 1 with bit 0, or bit 4 with bit 1; it is 0 during and after
reset. -/
def Obligations.IrqFollowsStatusAndIrqen : Prop :=
  (∀ s : State, s.irq = ((s.memRead 0x00C).getLsbD 1 && (s.memRead 0x010).getLsbD 0
      || (s.memRead 0x00C).getLsbD 4 && (s.memRead 0x010).getLsbD 1))
    ∧ (∀ b : Build, (State.resetOf b).irq = false)
    ∧ ∀ s : State, HeldInReset s → s.rstN = false → s.irq = false

/-- R141: `submit(w)`, the host's write of `w` to CMD: discarded while busy; an illegal word refused; a model fault for
a source that is not loaded; else acceptance with the snapshots of R41. -/
def Obligations.CmdWriteSubmits : Prop :=
  ∀ (s : State) (w : Word), s.hostWrites 0x014 w →
    (s.busy = true → ∃ t, step s = .next t ∧ SameBlock { s with ovr := true } t)
      ∧ (s.busy = false → (∃ e, decode w = .error e) →
          ∃ t, step s = .next t ∧ SameBlock { s with cmdLast := w, done := true, errCode := 1 } t)
      ∧ (s.busy = false → ∀ i, decode w = .ok i →
          ((∃ r ∈ i.reads, ∃ k, k < s.build.limbs ∧ s.initBit r k = false) → step s = .fault .uninitOperand)
          ∧ ((∀ r ∈ i.reads, ∀ k, k < s.build.limbs → s.initBit r k = true) →
            ∃ t, step s = .next t ∧ t.busy = true
              ∧ SameBlock { s with cmdLast := w
                                   inflight := some ⟨w, s.reg (raField w), s.reg (rbField w), s.reg (rmField w)⟩
                                   draws := [], entWords := [], done := false, errCode := 0 } t))

/-- R173 with R53 and R56: a write to the operand window: discarded with OVR while busy; else limb `k` of `Vi` is the value,
loaded, and every other limb and register is kept; above the operand it is ignored. -/
def Obligations.WindowWriteStoresLimb : Prop :=
  ∀ (s : State) (off : Offset) (i : Reg) (k : Nat) (w : Word), s.hostWrites off w → k < 128 →
    off.toNat = 0x1000 + 0x200 * i.val + 4 * k →
      ∃ t, step s = .next t
        ∧ (s.busy = true → SameBlock { s with ovr := true } t)
        ∧ (s.busy = false → s.build.limbs ≤ k → SameBlock s t)
        ∧ (s.busy = false → k < s.build.limbs →
            SameBlock { s with v := t.v, init := t.init } t
              ∧ (∀ (j : Reg) (l : Nat), limbOf (t.reg j) l = if j = i ∧ l = k then w else limbOf (s.reg j) l)
              ∧ (∀ (j : Reg) (l : Nat), t.initBit j l = (s.initBit j l || (decide (j = i) && decide (l = k))))
              ∧ (s.reg i < 2 ^ s.build.width → t.reg i < 2 ^ s.build.width))

/-- R53: an operand below `2^W` is the sum of its limbs. -/
def Obligations.OperandIsSumOfLimbs : Prop :=
  ∀ (s : State) (i : Reg), s.reg i < 2 ^ s.build.width →
    s.reg i = ((List.range s.build.limbs).map (fun k => (limbOf (s.reg i) k).toNat * 2 ^ (32 * k))).sum

/-- Repeating a write to STATUS, to IRQEN or to an idle window offset has the effect of writing once (R60). -/
def Obligations.RepeatedWritesIdempotent : Prop :=
  ∀ (s : State) (w : Word) (i : Reg) (k : Nat),
    (s.statusWrite w).statusWrite w = s.statusWrite w ∧ (s.irqenWrite w).irqenWrite w = s.irqenWrite w
      ∧ (s.busy = false → (s.windowWrite i k w).windowWrite i k w = s.windowWrite i k w)

/-- R83: from an idle block, LDV's writes load the integer: afterwards `Vi` holds it, every limb counts as loaded, and
every other register is as before. -/
def Obligations.LdvLoadsInteger : Prop :=
  ∀ (s : State) (i : Reg) (value : Nat) (rest : List Input),
    s.rstN = true → s.busy = false → s.build.legal = true → s.reg i < 2 ^ s.build.width → value < 2 ^ s.build.width →
      s.inputs = hostLdv s.build i value ++ rest →
        ∃ t : State, Sys2Proof.core.run s.build.limbs s = .next t ∧ t.reg i = value ∧ t.loaded i = true ∧ t.inputs = rest
          ∧ ∀ r, r ≠ i → SameReg s t r

/-! ## Abort, reset, entropy (R145, R165, R166, R26, R118) -/

/-- R145: ABORT does nothing to an idle block; it ends the in-flight command with ABORTED, whose destination then holds
some value of the operand range and counts as not loaded; PRED and every other register are kept. -/
def Obligations.AbortEndsCommand : Prop :=
  ∀ (s : State) (w : Word), s.hostWrites 0x008 w →
    ∃ t, step s = .next t
      ∧ ((w.getLsbD 0 = false ∨ s.inflight = none) → SameBlock s t)
      ∧ ∀ f, w.getLsbD 0 = true → s.inflight = some f →
          Ended t (ErrorCode.code .aborted) ∧ t.pred = s.pred ∧ t.reg (rdField f.word) < 2 ^ s.build.width
            ∧ (∀ k, t.initBit (rdField f.word) k = false) ∧ (∀ r, r ≠ rdField f.word → SameReg s t r)
            ∧ t.ovr = s.ovr ∧ t.doneIE = s.doneIE ∧ t.ovrIE = s.ovrIE ∧ t.cmdLast = s.cmdLast ∧ t.build = s.build

/-- R166: what reset leaves, whatever the build; the operand registers' contents are not stated. -/
def Obligations.ResetStateOfTheSpec : Prop :=
  (∀ b : Build, ((State.resetOf b).memRead 0x00C = 0 ∧ (State.resetOf b).inflight = none
      ∧ (State.resetOf b).memRead 0x010 = 0 ∧ (State.resetOf b).memRead 0x014 = 0 ∧ (State.resetOf b).memRead 0x008 = 0
      ∧ (State.resetOf b).memRead 0x000 = 0x4D414531 ∧ (State.resetOf b).memRead 0x004 = paramWord b
      ∧ (State.resetOf b).irq = false ∧ (State.resetOf b).entReq = false
      ∧ ∀ (i : Reg) (k : Nat), (State.resetOf b).initBit i k = false))
    ∧ State.reset.memRead 0x004 = 0x00080040

/-- R165: the assertion of `rst_n`, at any time, discards an in-flight command and leaves the reset state, held until
the pin is released; a host access before that is the fault ACCESS_IN_RESET. That the release changes the pin only is
log 17. -/
def Obligations.ResetPinAssertion : Prop :=
  (∀ s : State, s.resetNext → ∃ t, step s = .next t ∧ t.rstN = false ∧ HeldInReset t ∧ t.build = s.build
      ∧ t.irq = false ∧ t.entReq = false ∧ t.inputs = s.inputs.tail
      ∧ ∀ r, t.reg r < 2 ^ s.build.width)
    ∧ (∀ (s : State) (tr : Transaction) (rest : List Input), s.rstN = false → s.inputs = .host tr :: rest →
        step s = .fault .accessInReset)
    ∧ ∀ (s : State) (rest : List Input), s.inputs = .resetPin true :: rest →
        step s = .next { s with rstN := true, inputs := rest }

/-- R26, R118: an entropy word passes only while `ent_req` is 1. A witness made of it in `[2, n - 2]` is drawn and uses
up the words taken for it; with no witness made the word is kept for the draw. Nothing else of the block changes.
`ent_req` is 1 exactly while a PRIMETEST in flight cannot complete on the witnesses it has. That the input names what
WITNESS_DRAW made, and that a value outside the range is no witness, is log 5. -/
def Obligations.WitnessTakenOnRequest : Prop :=
  (∀ (s : State) (word : Word) (made : Option Nat) (rest : List Input), s.inputs = .entropy word made :: rest →
      ∃ t, step s = .next t ∧ SameBlock { s with draws := t.draws, entWords := t.entWords } t ∧ t.inputs = rest
        ∧ (s.entReq = false → t.draws = s.draws ∧ t.entWords = s.entWords)
        ∧ ∀ f, s.entReq = true → s.inflight = some f →
            (∀ a, made = some a → 2 ≤ a → a ≤ f.a - 2 → t.draws = s.draws ++ [a] ∧ t.entWords = [])
              ∧ ((∀ a, made = some a → ¬ (2 ≤ a ∧ a ≤ f.a - 2)) →
                t.draws = s.draws ∧ t.entWords = s.entWords ++ [word]))
    ∧ ∀ s : State, s.entReq = true ↔ s.rstN = true ∧ ∃ f rd ra rounds, s.inflight = some f
        ∧ decode f.word = .ok (.primetest rd ra rounds) ∧ exec (.primetest rd ra rounds) s = .next s

/-- R179: when the entropy source has stopped, a PRIMETEST that needs a witness stays in flight for ever, and nothing of
the block changes; an ABORT still ends it. That the engine moves when no input is left is the model's choice (log 6). -/
def Obligations.StarvedPrimetestStaysBusy : Prop :=
  ∀ s : State, s.entReq = true →
    (s.inputs = [] → ∀ k, Sys2Proof.core.run k s = .next s)
      ∧ (∀ w, s.hostWrites 0x008 w → w.getLsbD 0 = true →
          ∃ t, step s = .next t ∧ Ended t (ErrorCode.code .aborted) ∧ t.entReq = false)

/-! ## Rules of the whole machine -/

/-- R34: the successful completion of a predicate command sets PRED to the value it writes to its destination; no other
event but reset, which leaves 0, changes PRED. -/
def Obligations.PredWrittenByPredicatesOnly : Prop :=
  (∀ s t : State, step s = .next t →
      t.pred = s.pred ∨ (s.resetNext ∧ t.pred = false)
        ∨ ∃ f i, s.engineNext = true ∧ s.inflight = some f ∧ decode f.word = .ok i ∧ i.isPredicate = true
            ∧ t.errCode = 0 ∧ t.inflight = none ∧ t.reg i.dest = t.pred.toNat)
    ∧ (∀ (i : Instr) (s t : State), i.isPredicate = true → s.busy = true → exec i s = .next t → t.busy = false →
        t.errCode = 0 → t.reg i.dest = t.pred.toNat)
    ∧ ∀ b : Build, (State.resetOf b).pred = false

/-- R35: a discarded host write sets OVR, and nothing else does; only a STATUS write with bit 4 set, or reset, clears
it. -/
def Obligations.OvrSetByDiscardedWritesOnly : Prop :=
  (∀ (s : State) (off : Offset) (w : Word), s.hostWrites off w → s.busy = true → (off = 0x014 ∨ 0x1000 ≤ off.toNat) →
      ∃ t, step s = .next t ∧ t.ovr = true)
    ∧ (∀ s t : State, step s = .next t →
        (s.ovr = false → t.ovr = true →
            s.busy = true ∧ ∃ off w, s.hostWrites off w ∧ (off = 0x014 ∨ 0x1000 ≤ off.toNat))
          ∧ (s.ovr = true → t.ovr = false → s.resetNext ∨ ∃ w, s.hostWrites 0x00C w ∧ w.getLsbD 4 = true))
    ∧ ∀ b : Build, (State.resetOf b).ovr = false

/-- R39: a read of CMD returns CMDLAST; a host write to CMD while the engine is idle, accepted or refused, makes it the
word written; nothing else but reset, which leaves 0, changes it. -/
def Obligations.CmdLastIsLastIdleWord : Prop :=
  (∀ s : State, s.hostReads 0x014 → ∃ t, step s = .next t ∧ t.answer = some ⟨.ok, some s.cmdLast⟩)
    ∧ (∀ (s t : State) (w : Word), s.hostWrites 0x014 w → step s = .next t →
        t.cmdLast = if s.busy then s.cmdLast else w)
    ∧ (∀ s t : State, step s = .next t →
        t.cmdLast = s.cmdLast ∨ (s.resetNext ∧ t.cmdLast = 0) ∨ (s.busy = false ∧ s.hostWrites 0x014 t.cmdLast))
    ∧ ∀ b : Build, (State.resetOf b).cmdLast = 0

/-- R22: an operand register changes only by a host write to its window while idle, by the successful completion of a
command whose destination it is, by the abort of such a command, or by reset. -/
def Obligations.WhoWritesOperandRegisters : Prop :=
  ∀ (s t : State) (r : Reg), step s = .next t → t.reg r ≠ s.reg r →
    s.resetNext
      ∨ (s.busy = false ∧ ∃ off w k, s.hostWrites off w ∧ k < s.build.limbs ∧ k < 128
          ∧ off.toNat = 0x1000 + 0x200 * r.val + 4 * k)
      ∨ (∃ f, s.inflight = some f ∧ rdField f.word = r ∧ ∃ w, s.hostWrites 0x008 w ∧ w.getLsbD 0 = true)
      ∨ (s.engineNext = true ∧ ∃ f i, s.inflight = some f ∧ decode f.word = .ok i ∧ i.dest = r ∧ t.errCode = 0
          ∧ t.inflight = none)

/-- R31: BUSY rises only by the acceptance of a legal command word, and falls only by the engine's completion, an abort
or reset. -/
def Obligations.BusyRisesByAcceptance : Prop :=
  ∀ s t : State, step s = .next t →
    (s.busy = false → t.busy = true → ∃ w i, s.hostWrites 0x014 w ∧ decode w = .ok i ∧ t.cmdLast = w)
      ∧ (s.busy = true → t.busy = false →
          (t.done = true ∧ (s.engineNext = true ∨ ∃ w, s.hostWrites 0x008 w ∧ w.getLsbD 0 = true)) ∨ s.resetNext)

/-- R36: the invariants kept by every rule, and no code above 5, on their own. -/
def Obligations.FlagInvariantKept : Prop :=
  ∀ s t : State, FlagsConsistent s → step s = .next t → FlagsConsistent t

/-- R41: the snapshots equal the registers' current contents for the whole time a command is in flight. -/
def Obligations.SnapshotsEqualRegisters : Prop :=
  ∀ s t : State, InFlightFaithful s → step s = .next t → InFlightFaithful t

/-- The invariant of the machine holds after every step from every state in which it holds. -/
def Obligations.EveryStepKeepsInvariant : Prop :=
  ∀ s t : State, Inv s → step s = .next t → Inv t

/-- The invariant holds in the reset state of every build of a legal width. Its operand registers are 0 by the model's
choice (log 1), of which the invariant reads only that they are in range. -/
def Obligations.ResetStateMeetsInvariant : Prop :=
  Inv State.reset ∧ ∀ b : Build, b.legal = true → Inv (State.resetOf b)

/-- From a state of the invariant a step is refused in no case and faults only where the spec gives no meaning (R13):
an access during reset, or a command whose source is not loaded. -/
def Obligations.FaultsOnlyWithoutMeaning : Prop :=
  ∀ s : State, Inv s → (∃ t, step s = .next t) ∨ ∃ f, step s = .fault f ∧ NoMeaning s f

/-- A command accepted now and left to the engine completes: for a word other than a PRIMETEST, acceptance followed by
the engine's turn ends the command, and the operands are those at acceptance (R141, R158, R178). The two turns are the
next two inputs (log 6). -/
def Obligations.SubmittedCommandCompletes : Prop :=
  ∀ (s : State) (w : Word) (i : Instr), s.hostWrites 0x014 w → s.inputs.tail.head? = some .engine → s.busy = false →
    decode w = .ok i → (∀ rd ra rounds, i ≠ .primetest rd ra rounds) → i.reads.all s.loaded = true →
      ∃ (t : State) (c : BitVec 4), Sys2Proof.core.run 2 s = .next t ∧ Ended t c ∧ t.cmdLast = w
        ∧ ∃ u, exec i s = .next u ∧ u.errCode = c ∧ (c = 0 → t.reg i.dest = u.reg i.dest)

/-! ## The parameters of the platform (R8) -/

/-- R51: the block sees `off = address - MAE_BASE` of an address in its 8 KiB, the low 13 bits when the base is 8 KiB
aligned, and no other address reaches it. -/
def Obligations.PlatformAddressReachesOffset : Prop :=
  (∀ (b : Build) (address : Nat) (off : Offset), offsetOf b address = some off ↔ address = b.base + off.toNat)
    ∧ (∀ (b : Build) (address : Nat) (off : Offset), b.legal = true → offsetOf b address = some off →
        off.toNat = address % 2 ^ 13)
    ∧ ∀ (b : Build) (address : Nat) (t : Transaction) (i : Input),
        hostAt b address t = some i ↔ ∃ off, offsetOf b address = some off ∧ i = .host { t with off := off }

/-- R8, R118: whatever legal method `WITNESS_DRAW` is, the words the entropy source offers while `ent_req` is 1 become
the witnesses that the method makes of them, each word used at most once. That the words come one step each is log 5. -/
def Obligations.EntropyWordsMakeWitnesses : Prop :=
  ∀ (method : WitnessDraw) (s : State) (f : InFlight) (word : Word) (rest : List Input),
    method.legal → s.entReq = true → s.inflight = some f → s.inputs = s.entropyInput method word :: rest →
      step s = .next (State.entropyTurn method word (s.withInputs rest))
        ∧ ∃ t, step s = .next t ∧ SameBlock { s with draws := t.draws, entWords := t.entWords } t
          ∧ (∀ a, method f.a (s.entWords ++ [word]) = some a →
              2 ≤ a ∧ a ≤ f.a - 2 ∧ t.draws = s.draws ++ [a] ∧ t.entWords = [])
          ∧ (method f.a (s.entWords ++ [word]) = none → t.draws = s.draws ∧ t.entWords = s.entWords ++ [word])

/-- No step depends on MAE_BASE, BUS_PROTOCOL or ENTROPY_QUALITY (R8, R26, R50, R51, U13, U16): with other values of the
three the same step has the same outcome, and its next state differs in them alone. -/
def Obligations.PlatformParametersInvisible : Prop :=
  ∀ (s : State) (base : Nat) (bus : BusProtocol) (entropySecure : Bool),
    (∀ t, step s = .next t → step (s.onPlatform base bus entropySecure) = .next (t.onPlatform base bus entropySecure))
      ∧ (∀ f, step s = .fault f → step (s.onPlatform base bus entropySecure) = .fault f)
      ∧ (∀ r, step s = .refused r → step (s.onPlatform base bus entropySecure) = .refused r)

end
end

