-- ==== Sys2Proof/Laws/Arithmetic.lean ====
section
/-! SUPPORT. What the units' algorithms compute: one lemma per algorithm, in the mathematics of Sys2Proof/Safety.lean. -/

namespace Sys2Proof.Machine

/-! ## Exponentiation (R101, R102) -/

/-- The loop of R101 multiplies a reduced accumulator by `x ** k`, reduced. -/
theorem modexpLoop_eq (m fuel acc x k : Nat) (hacc : acc % m = acc) (hk : k ≤ fuel) :
    modexpLoop m fuel acc x k = acc * x ^ k % m := by
  induction fuel generalizing acc x k with
  | zero =>
    obtain rfl : k = 0 := Nat.le_zero.1 hk
    simp [modexpLoop, hacc]
  | succ fuel ih =>
    rw [modexpLoop]
    split
    · next h => simp [h, hacc]
    · next h =>
      have hhalf : k / 2 ≤ fuel := by omega
      have hsq : (x * x % m) ^ (k / 2) % m = x ^ (2 * (k / 2)) % m := by
        rw [← Nat.pow_mod, pow_mul, pow_two]
      split
      · next hodd =>
        rw [ih _ _ _ (Nat.mod_mod _ _) hhalf, Nat.mul_mod, hsq, ← Nat.mul_mod, Nat.mod_mul_mod]
        have : x ^ k = x * x ^ (2 * (k / 2)) := by rw [← pow_succ']; congr 1; omega
        rw [this, Nat.mul_assoc]
      · next heven =>
        rw [ih _ _ _ hacc hhalf, Nat.mul_mod, hsq, ← Nat.mul_mod]
        have : 2 * (k / 2) = k := by omega
        rw [this]

/-- The iterative algorithm returns `(b ** e) mod m` (R101). -/
theorem modexp_eq (b e m : Nat) : modexp b e m = b ^ e % m := by
  rw [modexp, modexpLoop_eq m e _ _ _ (Nat.mod_mod _ _) le_rfl, Nat.mod_mul_mod, Nat.one_mul, ← Nat.pow_mod]

/-- The recursion of R102 returns the same wherever 1 is reduced or the exponent is not 0. -/
theorem powRecLoop_eq (b m fuel e : Nat) (he : e ≤ fuel) (h : e ≠ 0 ∨ 1 % m = 1) :
    powRecLoop b m fuel e = b ^ e % m := by
  have base : ∀ fuel, powRecLoop b m fuel 0 = 1 := fun fuel => by cases fuel <;> rfl
  induction fuel generalizing e with
  | zero =>
    obtain rfl : e = 0 := Nat.le_zero.1 he
    rw [base, pow_zero, h.resolve_left (by simp)]
  | succ fuel ih =>
    rcases Nat.eq_zero_or_pos e with rfl | hpos
    · rw [base, pow_zero, h.resolve_left (by simp)]
    · -- the square of the half power is reduced in either case of the recursive call
      have hsq : powRecLoop b m fuel (e / 2) * powRecLoop b m fuel (e / 2) % m = b ^ (2 * (e / 2)) % m := by
        rcases Nat.eq_zero_or_pos (e / 2) with hz | hz
        · rw [hz, base]; simp
        · rw [ih (e / 2) (by omega) (Or.inl (by omega)), ← Nat.mul_mod, ← pow_add, two_mul]
      rw [powRecLoop, if_neg (by omega)]
      simp only [hsq]
      split
      · have : b ^ e = b ^ (2 * (e / 2)) * b := by rw [← pow_succ]; congr 1; omega
        rw [this, Nat.mod_mul_mod]
      · have : 2 * (e / 2) = e := by omega
        rw [this]

/-! ## The extended Euclidean algorithm (R131) -/

/-- The loop ends with `gcd r newr`, and keeps `a * t ≡ r`, `a * newt ≡ newr` modulo `n`. -/
theorem euclidLoop_spec (a n fuel r newr : Nat) (t newt : Int) (hfuel : newr ≤ fuel)
    (ht : (a : Int) * t ≡ r [ZMOD n]) (hnewt : (a : Int) * newt ≡ newr [ZMOD n]) :
    (euclidLoop fuel r newr t newt).1 = Nat.gcd r newr ∧
      (a : Int) * (euclidLoop fuel r newr t newt).2 ≡ ((euclidLoop fuel r newr t newt).1 : Int) [ZMOD n] := by
  induction fuel generalizing r newr t newt with
  | zero =>
    obtain rfl : newr = 0 := Nat.le_zero.1 hfuel
    exact ⟨(Nat.gcd_zero_right r).symm, ht⟩
  | succ fuel ih =>
    rw [euclidLoop]
    split
    · next h => subst h; exact ⟨(Nat.gcd_zero_right r).symm, ht⟩
    · next h =>
      have hmod : r - r / newr * newr = r % newr := by
        rw [Nat.mul_comm, Nat.mod_eq_sub_mul_div]
      have hlt : r % newr < newr := Nat.mod_lt _ (Nat.pos_of_ne_zero h)
      have hstep : (a : Int) * (t - ((r / newr : Nat) : Int) * newt) ≡ ((r % newr : Nat) : Int) [ZMOD n] := by
        have hr : ((r % newr : Nat) : Int) = (r : Int) - ((r / newr : Nat) : Int) * newr := by
          have := Nat.div_add_mod r newr
          have hcast : (r : Int) = (newr : Int) * ((r / newr : Nat) : Int) + ((r % newr : Nat) : Int) := by
            exact_mod_cast this.symm
          linear_combination -hcast
        have hl : (a : Int) * (t - ((r / newr : Nat) : Int) * newt)
            = a * t - ((r / newr : Nat) : Int) * (a * newt) := by ring
        rw [hr, hl]
        exact Int.ModEq.sub ht (Int.ModEq.mul_left _ hnewt)
      simp only [hmod]
      obtain ⟨hg, hb⟩ := ih newr (r % newr) newt (t - ((r / newr : Nat) : Int) * newt) (by omega) hnewt hstep
      refine ⟨?_, hb⟩
      rw [hg, Nat.gcd_comm r newr, Nat.gcd_rec newr r, Nat.gcd_comm]

/-- On return `r = gcd(a, n)` and `a * t ≡ r (mod n)` (R131). -/
theorem extEuclid_spec (a n : Nat) :
    (extEuclid a n).1 = Nat.gcd a n ∧ (a : Int) * (extEuclid a n).2 ≡ (Nat.gcd a n : Int) [ZMOD n] := by
  have h := euclidLoop_spec a n a n a 0 1 le_rfl (by simpa using (Int.modEq_zero_iff_dvd.2 (dvd_refl (n : Int))).symm)
    (by simp)
  obtain ⟨h1, h2⟩ := h
  rw [h1] at h2
  exact ⟨by rw [extEuclid, h1, Nat.gcd_comm], by rw [Nat.gcd_comm]; exact h2⟩

/-- The normalised coefficient lies in `[0, n)` and is congruent to the coefficient (R132). -/
theorem normalise_spec (t : Int) (n : Nat) (hn : 0 < n) :
    normalise t n < n ∧ ((normalise t n : Nat) : Int) ≡ t [ZMOD n] := by
  have hn' : (0 : Int) < n := by exact_mod_cast hn
  have hmod : (if t < 0 then t + (n : Int) else t) % (n : Int) = t % n := by split <;> simp
  have hnn : 0 ≤ t % (n : Int) := Int.emod_nonneg _ hn'.ne'
  have hcast : ((normalise t n : Nat) : Int) = t % n := by
    rw [normalise, hmod, Int.toNat_of_nonneg hnn]
  constructor
  · have := Int.emod_lt_of_pos t hn'
    have h2 : ((normalise t n : Nat) : Int) < n := by rw [hcast]; exact this
    exact_mod_cast h2
  · rw [hcast]; exact Int.mod_modEq _ _

/-- The value MODINV writes for coprime operands is an inverse in `[0, n)` (R132). -/
theorem normalise_inverse (a n : Nat) (hn : 0 < n) (hg : Nat.gcd a n = 1) :
    normalise (extEuclid a n).2 n < n ∧ a * normalise (extEuclid a n).2 n % n = 1 % n := by
  obtain ⟨hlt, hc⟩ := normalise_spec (extEuclid a n).2 n hn
  refine ⟨hlt, ?_⟩
  have h : (a : Int) * (normalise (extEuclid a n).2 n : Nat) ≡ 1 [ZMOD n] := by
    have := (extEuclid_spec a n).2
    rw [hg] at this
    exact (Int.ModEq.mul_left _ hc).trans (by simpa using this)
  have h2 : ((a * normalise (extEuclid a n).2 n : Nat) : Int) ≡ ((1 : Nat) : Int) [ZMOD n] := by
    push_cast; exact h
  exact (Int.natCast_modEq_iff.1 h2)

/-! ## Miller-Rabin (R110, R111) -/

/-- Repeated halving writes `2^r * s` with an odd cofactor; an even start counts at least one halving. -/
theorem halveLoop_spec (fuel r s : Nat) (hs : 0 < s) (hfuel : s ≤ fuel) :
    2 ^ (halveLoop fuel r s).1 * (halveLoop fuel r s).2 = 2 ^ r * s ∧ (halveLoop fuel r s).2 % 2 = 1
      ∧ r ≤ (halveLoop fuel r s).1 ∧ (s % 2 = 0 → r < (halveLoop fuel r s).1) := by
  induction fuel generalizing r s with
  | zero => omega
  | succ fuel ih =>
    rw [halveLoop]
    split
    · next h =>
      obtain ⟨h1, h2, h3, _⟩ := ih (r + 1) (s / 2) (by omega) (by omega)
      refine ⟨?_, h2, by omega, fun _ => by omega⟩
      rw [h1, pow_succ, Nat.mul_assoc]; congr 1; omega
    · next h => exact ⟨rfl, by omega, le_rfl, fun hc => absurd hc h⟩

/-- `decompose(n)` for odd `n >= 3` (R110). -/
theorem decompose_spec (n : Nat) (hodd : n % 2 = 1) (hn : 3 ≤ n) :
    n - 1 = 2 ^ (decompose n).1 * (decompose n).2 ∧ (decompose n).2 % 2 = 1 ∧ 1 ≤ (decompose n).1 := by
  obtain ⟨h1, h2, _, h4⟩ := halveLoop_spec (n - 1) 0 (n - 1) (by omega) le_rfl
  exact ⟨by rw [decompose, h1]; simp, h2, h4 (by omega)⟩

/-- The decomposition of R110 is unique. -/
theorem twoPow_mul_odd_unique {r s r' s' : Nat} (h : 2 ^ r * s = 2 ^ r' * s') (hs : s % 2 = 1) (hs' : s' % 2 = 1) :
    r = r' ∧ s = s' := by
  have key : ∀ {r s r' s' : Nat}, 2 ^ r * s = 2 ^ r' * s' → s % 2 = 1 → ¬ r < r' := by
    intro r s r' s' h hs hlt
    obtain ⟨d, rfl⟩ := Nat.exists_eq_add_of_lt hlt
    have h2 : s = 2 * (2 ^ d * s') := by
      have hp : 0 < 2 ^ r := by positivity
      apply Nat.eq_of_mul_eq_mul_left hp
      rw [h]; ring
    omega
  have hr : r = r' := Nat.le_antisymm (Nat.not_lt.1 (key h.symm hs')) (Nat.not_lt.1 (key h hs))
  subst hr
  exact ⟨rfl, Nat.eq_of_mul_eq_mul_left (by positivity) h⟩

/-- The squarings pass exactly when one of the powers `x^(2^j)`, `1 <= j <= count`, is `n - 1`. -/
theorem squareLoop_iff (n count x : Nat) :
    squareLoop n count x = true ↔ ∃ j, 1 ≤ j ∧ j ≤ count ∧ x ^ 2 ^ j % n = n - 1 := by
  induction count generalizing x with
  | zero =>
    constructor
    · intro h; cases h
    · rintro ⟨j, h1, h2, _⟩; omega
  | succ count ih =>
    have hpow : ∀ j, (x * x % n) ^ 2 ^ j % n = x ^ 2 ^ (j + 1) % n := by
      intro j
      rw [← Nat.pow_mod, ← pow_two, ← pow_mul, pow_succ' 2 j]
    rw [squareLoop]
    split
    · next h => exact iff_of_true rfl ⟨1, le_rfl, by omega, by simpa [pow_two] using h⟩
    · next h =>
      rw [ih]
      constructor
      · rintro ⟨j, h1, h2, h3⟩; exact ⟨j + 1, by omega, by omega, by rw [← hpow]; exact h3⟩
      · rintro ⟨j, h1, h2, h3⟩
        obtain ⟨j, rfl⟩ := Nat.exists_eq_add_of_le' h1
        rcases Nat.eq_zero_or_pos j with rfl | hj
        · exact absurd (by simpa [pow_two] using h3) h
        · exact ⟨j, hj, by omega, by rw [hpow]; exact h3⟩

/-- One round passes exactly when the powers of R111 say so. -/
theorem mrRound_iff (n r s a : Nat) (hr : 1 ≤ r) :
    mrRound n r s a = true ↔ a ^ s % n = 1 ∨ ∃ j, j < r ∧ a ^ (2 ^ j * s) % n = n - 1 := by
  have hpow : ∀ j, (a ^ s % n) ^ 2 ^ j % n = a ^ (2 ^ j * s) % n := by
    intro j; rw [← Nat.pow_mod, ← pow_mul, Nat.mul_comm]
  simp only [mrRound, modexp_eq]
  split
  · next h =>
    refine iff_of_true rfl ?_
    rcases h with h | h
    · exact Or.inl h
    · exact Or.inr ⟨0, hr, by simpa using h⟩
  · next h =>
    rw [squareLoop_iff]
    constructor
    · rintro ⟨j, h1, h2, h3⟩; exact Or.inr ⟨j, by omega, by rw [← hpow]; exact h3⟩
    · rintro (h1 | ⟨j, h1, h2⟩)
      · exact absurd (Or.inl h1) h
      · rcases Nat.eq_zero_or_pos j with rfl | hj
        · exact absurd (Or.inr (by simpa using h2)) h
        · exact ⟨j, hj, by omega, by rw [hpow]; exact h2⟩

/-- A round on the decomposition of `n` is the test of `StrongPass`. -/
theorem mrRound_decompose (n a : Nat) (hn : RoundsRun n) :
    mrRound n (decompose n).1 (decompose n).2 a = true ↔ StrongPass n a := by
  obtain ⟨h1, h2, h3⟩ := decompose_spec n hn.1 (by have := hn.2; omega)
  rw [mrRound_iff _ _ _ _ h3]
  constructor
  · intro h; exact ⟨_, _, h1, h2, h⟩
  · rintro ⟨r, s, hrs, hodd, h⟩
    obtain ⟨rfl, rfl⟩ := twoPow_mul_odd_unique (h1.symm.trans hrs) h2 hodd
    exact h

/-- `precheck` decides the small and the even `n` and no other (R114, R115). -/
theorem precheck_none_iff (n : Nat) : precheck n = none ↔ RoundsRun n := by
  simp only [precheck, RoundsRun]
  repeat' split
  all_goals simp
  all_goals omega

theorem precheck_some (n : Nat) (h : ¬ RoundsRun n) : precheck n = some (SmallAnswer n) := by
  simp only [RoundsRun] at h
  simp only [precheck, SmallAnswer]
  repeat' split
  all_goals simp
  all_goals omega

/-- The rounds of PRIMETEST: 0 as soon as a drawn witness fails, 1 once all rounds pass, else a witness is needed. -/
theorem testRounds_spec (n r s rounds : Nat) (draws : List Nat) :
    testRounds n r s rounds draws =
      if (draws.take rounds).all (fun a => mrRound n r s a) then
        if rounds ≤ draws.length then some true else none
      else some false := by
  induction rounds generalizing draws with
  | zero => simp [testRounds]
  | succ rounds ih =>
    cases draws with
    | nil => simp [testRounds]
    | cons a draws =>
      rw [testRounds, ih]
      cases h : mrRound n r s a <;> simp [h]

end Sys2Proof.Machine
end

