-- ==== Sys2Proof/Laws/Decode.lean ====
section
/-! SUPPORT. The laws of the command word: the decoder as a chain of cases, and the fields of a packed word. -/

namespace Sys2Proof

/-- The decoder as one chain of cases, in the order of the table (R76, R78). -/
theorem decode_eq (w : Word) :
    decode w =
      if w &&& 0xFF8F88FF#32 = 0x00000001#32 then .ok (.modred (rdField w) (raField w) (rmField w))
      else if w &&& 0xFF8888FF#32 = 0x00000002#32 then .ok (.modmul (rdField w) (raField w) (rbField w) (rmField w))
      else if w &&& 0xFF8888FF#32 = 0x00000003#32 then .ok (.modexp (rdField w) (raField w) (rbField w) (rmField w))
      else if w &&& 0xFF8F88FF#32 = 0x00000004#32 then .ok (.modinv (rdField w) (raField w) (rmField w))
      else if w &&& 0xFFFF88FF#32 = 0x00000005#32 then .ok (.fermat2 (rdField w) (raField w))
      else if w &&& 0xFFF888FF#32 = 0x00000006#32 then .ok (.mrround (rdField w) (raField w) (rbField w))
      else if w &&& 0x00FF88FF#32 = 0x00000007#32 then .ok (.primetest (rdField w) (raField w) (immField w))
      else .error (illegalReason w) := by
  by_cases h1 : w &&& 0xFF8F88FF#32 = 0x00000001#32
  · simp [decode, rows, Row.accepts, h1]
  by_cases h2 : w &&& 0xFF8888FF#32 = 0x00000002#32
  · simp [decode, rows, Row.accepts, h1, h2]
  by_cases h3 : w &&& 0xFF8888FF#32 = 0x00000003#32
  · simp [decode, rows, Row.accepts, h1, h3]
  by_cases h4 : w &&& 0xFF8F88FF#32 = 0x00000004#32
  · simp [decode, rows, Row.accepts, h2, h3, h4]
  by_cases h5 : w &&& 0xFFFF88FF#32 = 0x00000005#32
  · simp [decode, rows, Row.accepts, h1, h2, h3, h4, h5]
  by_cases h6 : w &&& 0xFFF888FF#32 = 0x00000006#32
  · simp [decode, rows, Row.accepts, h1, h2, h3, h4, h5, h6]
  by_cases h7 : w &&& 0x00FF88FF#32 = 0x00000007#32
  · simp [decode, rows, Row.accepts, h1, h2, h3, h4, h5, h6, h7]
  simp [decode, rows, Row.accepts, h1, h2, h3, h4, h5, h6, h7]

/-- A masked word fixes its low byte, the opcode, when the mask covers it. -/
theorem opField_of_masked {w mask val : Word} (h : w &&& mask = val) (hm : opField mask = 0xFF) :
    opField w = opField val := by
  have : opField (w &&& mask) = opField w &&& opField mask := by
    simp [opField, BitVec.extractLsb'_and]
  rw [← h, this, hm]
  exact (BitVec.and_allOnes (x := opField w)).symm

theorem reg_testBit (r : Reg) (k : Nat) (hk : 3 ≤ k) : r.val.testBit k = false :=
  Nat.testBit_lt_two_pow (lt_of_lt_of_le r.isLt (by
    calc 8 = 2 ^ 3 := rfl
      _ ≤ 2 ^ k := Nat.pow_le_pow_right (by decide) hk))

theorem imm_testBit (n : Nat) (hn : n ≤ maxRounds) (k : Nat) (hk : 8 ≤ k) : n.testBit k = false :=
  Nat.testBit_lt_two_pow (lt_of_lt_of_le (Nat.lt_succ_of_le hn) (by
    calc maxRounds + 1 = 2 ^ 8 := rfl
      _ ≤ 2 ^ k := Nat.pow_le_pow_right (by decide) hk))

/-- Bit `k` of a packed word (R71). -/
theorem packWord_getLsbD (imm : Nat) (rm rb ra rd : Reg) (op k : Nat) (hk : k < 32) :
    (packWord imm rm rb ra rd op).getLsbD k =
      ((decide (24 ≤ k) && imm.testBit (k - 24)) || (decide (20 ≤ k) && rm.val.testBit (k - 20))
        || (decide (16 ≤ k) && rb.val.testBit (k - 16)) || (decide (12 ≤ k) && ra.val.testBit (k - 12))
        || (decide (8 ≤ k) && rd.val.testBit (k - 8)) || op.testBit k) := by
  have hsub : ∀ j, k - j < 32 := fun j => by omega
  have hle : ∀ j, decide (k < j) = !decide (j ≤ k) := fun j => by
    rcases Nat.lt_or_ge k j with h | h
    · simp [h, Nat.not_le.2 h]
    · simp [h, Nat.not_lt.2 h]
  simp only [packWord, BitVec.getLsbD_or, BitVec.getLsbD_shiftLeft, BitVec.getLsbD_ofNat, hk, hsub, hle, decide_true,
    Bool.true_and, Bool.not_not]

/-- A word is fixed under a mask by its bits there. -/
theorem packWord_and {mask val : Word} {imm : Nat} {rm rb ra rd : Reg} {op : Nat}
    (h : ∀ k, k < 32 → ((packWord imm rm rb ra rd op).getLsbD k && mask.getLsbD k) = val.getLsbD k) :
    packWord imm rm rb ra rd op &&& mask = val := by
  apply BitVec.eq_of_getLsbD_eq
  intro k hk
  rw [BitVec.getLsbD_and]
  exact h k hk

/-- The fields of a packed word are the numbers it was packed from (R71). -/
theorem packWord_fields (imm : Nat) (rm rb ra rd : Reg) (op : Nat) (himm : imm ≤ maxRounds) (hop : op < 256) :
    rdField (packWord imm rm rb ra rd op) = rd ∧ raField (packWord imm rm rb ra rd op) = ra
      ∧ rbField (packWord imm rm rb ra rd op) = rb ∧ rmField (packWord imm rm rb ra rd op) = rm
      ∧ immField (packWord imm rm rb ra rd op) = imm ∧ opField (packWord imm rm rb ra rd op) = BitVec.ofNat 8 op := by
  have hopb : ∀ k, 8 ≤ k → op.testBit k = false := fun k hk =>
    Nat.testBit_lt_two_pow (lt_of_lt_of_le hop (Nat.pow_le_pow_right (by decide) hk : 2 ^ 8 ≤ 2 ^ k))
  have hb := packWord_getLsbD imm rm rb ra rd op
  have hi := imm_testBit imm himm
  have key : ∀ (r : Reg) (o : Nat),
      (∀ j, j < 3 → (packWord imm rm rb ra rd op).getLsbD (o + j) = r.val.testBit j) →
        (packWord imm rm rb ra rd op).extractLsb' o 3 = BitVec.ofFin (w := 3) r := by
    intro r o h
    apply BitVec.eq_of_getLsbD_eq
    intro j hj
    rw [BitVec.getLsbD_extractLsb', h j hj]
    simp only [hj, decide_true, Bool.true_and]
    rfl
  have reg3 : ∀ (r : Reg) (o : Nat), o + 3 ≤ 32 →
      (∀ j, j < 3 → ((decide (24 ≤ o + j) && imm.testBit (o + j - 24)) || (decide (20 ≤ o + j) && rm.val.testBit (o + j - 20))
        || (decide (16 ≤ o + j) && rb.val.testBit (o + j - 16)) || (decide (12 ≤ o + j) && ra.val.testBit (o + j - 12))
        || (decide (8 ≤ o + j) && rd.val.testBit (o + j - 8)) || op.testBit (o + j)) = r.val.testBit j) →
      (packWord imm rm rb ra rd op).extractLsb' o 3 = BitVec.ofFin (w := 3) r := by
    intro r o ho h
    refine key r o fun j hj => ?_
    rw [hb _ (by omega)]
    exact h j hj
  refine ⟨?_, ?_, ?_, ?_, ?_, ?_⟩
  · rw [rdField, reg3 rd 8 (by decide) fun j hj => by interval_cases j <;> simp [hopb]]
  · rw [raField, reg3 ra 12 (by decide) fun j hj => by interval_cases j <;> simp [hopb, reg_testBit]]
  · rw [rbField, reg3 rb 16 (by decide) fun j hj => by interval_cases j <;> simp [hopb, reg_testBit]]
  · rw [rmField, reg3 rm 20 (by decide) fun j hj => by interval_cases j <;> simp [hopb, reg_testBit]]
  · apply Nat.eq_of_testBit_eq
    intro j
    show ((packWord imm rm rb ra rd op).extractLsb' 24 8).getLsbD j = _
    by_cases hj : j < 8
    · rw [BitVec.getLsbD_extractLsb', hb _ (by omega)]
      interval_cases j <;> simp [hopb, reg_testBit]
    · rw [hi j (by omega)]
      exact BitVec.getLsbD_of_ge _ j (by omega)
  · apply BitVec.eq_of_getLsbD_eq
    intro j hj
    rw [opField, BitVec.getLsbD_extractLsb', hb _ (by omega)]
    simp only [BitVec.getLsbD_ofNat, hj]
    interval_cases j <;> simp

end Sys2Proof
end

