-- ==== Sys2Proof/Laws/State.lean ====
section
/-! SUPPORT. One lemma per field per update of the state, each true by rfl, and what the views computed from the state
become. No later proof unfolds a record update. -/

namespace Sys2Proof.Machine

variable (s : State)


/-! ### `State.withInputs` -/

@[simp] theorem State.withInputs_build (rest : List Input) : (s.withInputs rest).build = s.build := rfl
@[simp] theorem State.withInputs_v (rest : List Input) : (s.withInputs rest).v = s.v := rfl
@[simp] theorem State.withInputs_inflight (rest : List Input) : (s.withInputs rest).inflight = s.inflight := rfl
@[simp] theorem State.withInputs_done (rest : List Input) : (s.withInputs rest).done = s.done := rfl
@[simp] theorem State.withInputs_pred (rest : List Input) : (s.withInputs rest).pred = s.pred := rfl
@[simp] theorem State.withInputs_ovr (rest : List Input) : (s.withInputs rest).ovr = s.ovr := rfl
@[simp] theorem State.withInputs_errCode (rest : List Input) : (s.withInputs rest).errCode = s.errCode := rfl
@[simp] theorem State.withInputs_doneIE (rest : List Input) : (s.withInputs rest).doneIE = s.doneIE := rfl
@[simp] theorem State.withInputs_ovrIE (rest : List Input) : (s.withInputs rest).ovrIE = s.ovrIE := rfl
@[simp] theorem State.withInputs_cmdLast (rest : List Input) : (s.withInputs rest).cmdLast = s.cmdLast := rfl
@[simp] theorem State.withInputs_init (rest : List Input) : (s.withInputs rest).init = s.init := rfl
@[simp] theorem State.withInputs_draws (rest : List Input) : (s.withInputs rest).draws = s.draws := rfl
@[simp] theorem State.withInputs_entWords (rest : List Input) : (s.withInputs rest).entWords = s.entWords := rfl
@[simp] theorem State.withInputs_rstN (rest : List Input) : (s.withInputs rest).rstN = s.rstN := rfl
@[simp] theorem State.withInputs_answer (rest : List Input) : (s.withInputs rest).answer = s.answer := rfl
@[simp] theorem State.withInputs_inputs (rest : List Input) : (s.withInputs rest).inputs = rest := rfl
@[simp] theorem State.withInputs_fresh (rest : List Input) : (s.withInputs rest).fresh = s.fresh := rfl

/-! ### `State.overrun` -/

@[simp] theorem State.overrun_build : s.overrun.build = s.build := rfl
@[simp] theorem State.overrun_v : s.overrun.v = s.v := rfl
@[simp] theorem State.overrun_inflight : s.overrun.inflight = s.inflight := rfl
@[simp] theorem State.overrun_done : s.overrun.done = s.done := rfl
@[simp] theorem State.overrun_pred : s.overrun.pred = s.pred := rfl
@[simp] theorem State.overrun_ovr : s.overrun.ovr = true := rfl
@[simp] theorem State.overrun_errCode : s.overrun.errCode = s.errCode := rfl
@[simp] theorem State.overrun_doneIE : s.overrun.doneIE = s.doneIE := rfl
@[simp] theorem State.overrun_ovrIE : s.overrun.ovrIE = s.ovrIE := rfl
@[simp] theorem State.overrun_cmdLast : s.overrun.cmdLast = s.cmdLast := rfl
@[simp] theorem State.overrun_init : s.overrun.init = s.init := rfl
@[simp] theorem State.overrun_draws : s.overrun.draws = s.draws := rfl
@[simp] theorem State.overrun_entWords : s.overrun.entWords = s.entWords := rfl
@[simp] theorem State.overrun_rstN : s.overrun.rstN = s.rstN := rfl
@[simp] theorem State.overrun_answer : s.overrun.answer = s.answer := rfl
@[simp] theorem State.overrun_inputs : s.overrun.inputs = s.inputs := rfl
@[simp] theorem State.overrun_fresh : s.overrun.fresh = s.fresh := rfl

/-! ### `State.statusWrite` -/

@[simp] theorem State.statusWrite_build (w : Word) : (s.statusWrite w).build = s.build := rfl
@[simp] theorem State.statusWrite_v (w : Word) : (s.statusWrite w).v = s.v := rfl
@[simp] theorem State.statusWrite_inflight (w : Word) : (s.statusWrite w).inflight = s.inflight := rfl
@[simp] theorem State.statusWrite_done (w : Word) : (s.statusWrite w).done = (s.done && !w.getLsbD 1) := rfl
@[simp] theorem State.statusWrite_pred (w : Word) : (s.statusWrite w).pred = s.pred := rfl
@[simp] theorem State.statusWrite_ovr (w : Word) : (s.statusWrite w).ovr = (s.ovr && !w.getLsbD 4) := rfl
@[simp] theorem State.statusWrite_errCode (w : Word) : (s.statusWrite w).errCode = (if w.getLsbD 1 then 0 else s.errCode) := rfl
@[simp] theorem State.statusWrite_doneIE (w : Word) : (s.statusWrite w).doneIE = s.doneIE := rfl
@[simp] theorem State.statusWrite_ovrIE (w : Word) : (s.statusWrite w).ovrIE = s.ovrIE := rfl
@[simp] theorem State.statusWrite_cmdLast (w : Word) : (s.statusWrite w).cmdLast = s.cmdLast := rfl
@[simp] theorem State.statusWrite_init (w : Word) : (s.statusWrite w).init = s.init := rfl
@[simp] theorem State.statusWrite_draws (w : Word) : (s.statusWrite w).draws = s.draws := rfl
@[simp] theorem State.statusWrite_entWords (w : Word) : (s.statusWrite w).entWords = s.entWords := rfl
@[simp] theorem State.statusWrite_rstN (w : Word) : (s.statusWrite w).rstN = s.rstN := rfl
@[simp] theorem State.statusWrite_answer (w : Word) : (s.statusWrite w).answer = s.answer := rfl
@[simp] theorem State.statusWrite_inputs (w : Word) : (s.statusWrite w).inputs = s.inputs := rfl
@[simp] theorem State.statusWrite_fresh (w : Word) : (s.statusWrite w).fresh = s.fresh := rfl

/-! ### `State.irqenWrite` -/

@[simp] theorem State.irqenWrite_build (w : Word) : (s.irqenWrite w).build = s.build := rfl
@[simp] theorem State.irqenWrite_v (w : Word) : (s.irqenWrite w).v = s.v := rfl
@[simp] theorem State.irqenWrite_inflight (w : Word) : (s.irqenWrite w).inflight = s.inflight := rfl
@[simp] theorem State.irqenWrite_done (w : Word) : (s.irqenWrite w).done = s.done := rfl
@[simp] theorem State.irqenWrite_pred (w : Word) : (s.irqenWrite w).pred = s.pred := rfl
@[simp] theorem State.irqenWrite_ovr (w : Word) : (s.irqenWrite w).ovr = s.ovr := rfl
@[simp] theorem State.irqenWrite_errCode (w : Word) : (s.irqenWrite w).errCode = s.errCode := rfl
@[simp] theorem State.irqenWrite_doneIE (w : Word) : (s.irqenWrite w).doneIE = w.getLsbD 0 := rfl
@[simp] theorem State.irqenWrite_ovrIE (w : Word) : (s.irqenWrite w).ovrIE = w.getLsbD 1 := rfl
@[simp] theorem State.irqenWrite_cmdLast (w : Word) : (s.irqenWrite w).cmdLast = s.cmdLast := rfl
@[simp] theorem State.irqenWrite_init (w : Word) : (s.irqenWrite w).init = s.init := rfl
@[simp] theorem State.irqenWrite_draws (w : Word) : (s.irqenWrite w).draws = s.draws := rfl
@[simp] theorem State.irqenWrite_entWords (w : Word) : (s.irqenWrite w).entWords = s.entWords := rfl
@[simp] theorem State.irqenWrite_rstN (w : Word) : (s.irqenWrite w).rstN = s.rstN := rfl
@[simp] theorem State.irqenWrite_answer (w : Word) : (s.irqenWrite w).answer = s.answer := rfl
@[simp] theorem State.irqenWrite_inputs (w : Word) : (s.irqenWrite w).inputs = s.inputs := rfl
@[simp] theorem State.irqenWrite_fresh (w : Word) : (s.irqenWrite w).fresh = s.fresh := rfl

/-! ### `State.writeLimb` -/

@[simp] theorem State.writeLimb_build (i : Reg) (k : Nat) (w : Word) : (s.writeLimb i k w).build = s.build := rfl
@[simp] theorem State.writeLimb_v (i : Reg) (k : Nat) (w : Word) : (s.writeLimb i k w).v = s.v.set i (setLimb (s.reg i) k w) := rfl
@[simp] theorem State.writeLimb_inflight (i : Reg) (k : Nat) (w : Word) : (s.writeLimb i k w).inflight = s.inflight := rfl
@[simp] theorem State.writeLimb_done (i : Reg) (k : Nat) (w : Word) : (s.writeLimb i k w).done = s.done := rfl
@[simp] theorem State.writeLimb_pred (i : Reg) (k : Nat) (w : Word) : (s.writeLimb i k w).pred = s.pred := rfl
@[simp] theorem State.writeLimb_ovr (i : Reg) (k : Nat) (w : Word) : (s.writeLimb i k w).ovr = s.ovr := rfl
@[simp] theorem State.writeLimb_errCode (i : Reg) (k : Nat) (w : Word) : (s.writeLimb i k w).errCode = s.errCode := rfl
@[simp] theorem State.writeLimb_doneIE (i : Reg) (k : Nat) (w : Word) : (s.writeLimb i k w).doneIE = s.doneIE := rfl
@[simp] theorem State.writeLimb_ovrIE (i : Reg) (k : Nat) (w : Word) : (s.writeLimb i k w).ovrIE = s.ovrIE := rfl
@[simp] theorem State.writeLimb_cmdLast (i : Reg) (k : Nat) (w : Word) : (s.writeLimb i k w).cmdLast = s.cmdLast := rfl
@[simp] theorem State.writeLimb_init (i : Reg) (k : Nat) (w : Word) : (s.writeLimb i k w).init = s.init.set i (s.init[i] ||| BitVec.twoPow 128 k) := rfl
@[simp] theorem State.writeLimb_draws (i : Reg) (k : Nat) (w : Word) : (s.writeLimb i k w).draws = s.draws := rfl
@[simp] theorem State.writeLimb_entWords (i : Reg) (k : Nat) (w : Word) : (s.writeLimb i k w).entWords = s.entWords := rfl
@[simp] theorem State.writeLimb_rstN (i : Reg) (k : Nat) (w : Word) : (s.writeLimb i k w).rstN = s.rstN := rfl
@[simp] theorem State.writeLimb_answer (i : Reg) (k : Nat) (w : Word) : (s.writeLimb i k w).answer = s.answer := rfl
@[simp] theorem State.writeLimb_inputs (i : Reg) (k : Nat) (w : Word) : (s.writeLimb i k w).inputs = s.inputs := rfl
@[simp] theorem State.writeLimb_fresh (i : Reg) (k : Nat) (w : Word) : (s.writeLimb i k w).fresh = s.fresh := rfl

/-! ### `State.endCommand` -/

@[simp] theorem State.endCommand_build (c : BitVec 4) : (s.endCommand c).build = s.build := rfl
@[simp] theorem State.endCommand_v (c : BitVec 4) : (s.endCommand c).v = s.v := rfl
@[simp] theorem State.endCommand_inflight (c : BitVec 4) : (s.endCommand c).inflight = none := rfl
@[simp] theorem State.endCommand_done (c : BitVec 4) : (s.endCommand c).done = true := rfl
@[simp] theorem State.endCommand_pred (c : BitVec 4) : (s.endCommand c).pred = s.pred := rfl
@[simp] theorem State.endCommand_ovr (c : BitVec 4) : (s.endCommand c).ovr = s.ovr := rfl
@[simp] theorem State.endCommand_errCode (c : BitVec 4) : (s.endCommand c).errCode = c := rfl
@[simp] theorem State.endCommand_doneIE (c : BitVec 4) : (s.endCommand c).doneIE = s.doneIE := rfl
@[simp] theorem State.endCommand_ovrIE (c : BitVec 4) : (s.endCommand c).ovrIE = s.ovrIE := rfl
@[simp] theorem State.endCommand_cmdLast (c : BitVec 4) : (s.endCommand c).cmdLast = s.cmdLast := rfl
@[simp] theorem State.endCommand_init (c : BitVec 4) : (s.endCommand c).init = s.init := rfl
@[simp] theorem State.endCommand_draws (c : BitVec 4) : (s.endCommand c).draws = [] := rfl
@[simp] theorem State.endCommand_entWords (c : BitVec 4) : (s.endCommand c).entWords = [] := rfl
@[simp] theorem State.endCommand_rstN (c : BitVec 4) : (s.endCommand c).rstN = s.rstN := rfl
@[simp] theorem State.endCommand_answer (c : BitVec 4) : (s.endCommand c).answer = s.answer := rfl
@[simp] theorem State.endCommand_inputs (c : BitVec 4) : (s.endCommand c).inputs = s.inputs := rfl
@[simp] theorem State.endCommand_fresh (c : BitVec 4) : (s.endCommand c).fresh = s.fresh := rfl

/-! ### `State.raise` -/

@[simp] theorem State.raise_build (e : ErrorCode) : (s.raise e).build = s.build := rfl
@[simp] theorem State.raise_v (e : ErrorCode) : (s.raise e).v = s.v := rfl
@[simp] theorem State.raise_inflight (e : ErrorCode) : (s.raise e).inflight = none := rfl
@[simp] theorem State.raise_done (e : ErrorCode) : (s.raise e).done = true := rfl
@[simp] theorem State.raise_pred (e : ErrorCode) : (s.raise e).pred = s.pred := rfl
@[simp] theorem State.raise_ovr (e : ErrorCode) : (s.raise e).ovr = s.ovr := rfl
@[simp] theorem State.raise_errCode (e : ErrorCode) : (s.raise e).errCode = e.code := rfl
@[simp] theorem State.raise_doneIE (e : ErrorCode) : (s.raise e).doneIE = s.doneIE := rfl
@[simp] theorem State.raise_ovrIE (e : ErrorCode) : (s.raise e).ovrIE = s.ovrIE := rfl
@[simp] theorem State.raise_cmdLast (e : ErrorCode) : (s.raise e).cmdLast = s.cmdLast := rfl
@[simp] theorem State.raise_init (e : ErrorCode) : (s.raise e).init = s.init := rfl
@[simp] theorem State.raise_draws (e : ErrorCode) : (s.raise e).draws = [] := rfl
@[simp] theorem State.raise_entWords (e : ErrorCode) : (s.raise e).entWords = [] := rfl
@[simp] theorem State.raise_rstN (e : ErrorCode) : (s.raise e).rstN = s.rstN := rfl
@[simp] theorem State.raise_answer (e : ErrorCode) : (s.raise e).answer = s.answer := rfl
@[simp] theorem State.raise_inputs (e : ErrorCode) : (s.raise e).inputs = s.inputs := rfl
@[simp] theorem State.raise_fresh (e : ErrorCode) : (s.raise e).fresh = s.fresh := rfl

/-! ### `State.completeOk` -/

@[simp] theorem State.completeOk_build (rd : Reg) (x : Nat) : (s.completeOk rd x).build = s.build := rfl
@[simp] theorem State.completeOk_v (rd : Reg) (x : Nat) : (s.completeOk rd x).v = s.v.set rd x := rfl
@[simp] theorem State.completeOk_inflight (rd : Reg) (x : Nat) : (s.completeOk rd x).inflight = none := rfl
@[simp] theorem State.completeOk_done (rd : Reg) (x : Nat) : (s.completeOk rd x).done = true := rfl
@[simp] theorem State.completeOk_pred (rd : Reg) (x : Nat) : (s.completeOk rd x).pred = s.pred := rfl
@[simp] theorem State.completeOk_ovr (rd : Reg) (x : Nat) : (s.completeOk rd x).ovr = s.ovr := rfl
@[simp] theorem State.completeOk_errCode (rd : Reg) (x : Nat) : (s.completeOk rd x).errCode = 0 := rfl
@[simp] theorem State.completeOk_doneIE (rd : Reg) (x : Nat) : (s.completeOk rd x).doneIE = s.doneIE := rfl
@[simp] theorem State.completeOk_ovrIE (rd : Reg) (x : Nat) : (s.completeOk rd x).ovrIE = s.ovrIE := rfl
@[simp] theorem State.completeOk_cmdLast (rd : Reg) (x : Nat) : (s.completeOk rd x).cmdLast = s.cmdLast := rfl
@[simp] theorem State.completeOk_init (rd : Reg) (x : Nat) : (s.completeOk rd x).init = s.init.set rd (allLoaded s.build) := rfl
@[simp] theorem State.completeOk_draws (rd : Reg) (x : Nat) : (s.completeOk rd x).draws = [] := rfl
@[simp] theorem State.completeOk_entWords (rd : Reg) (x : Nat) : (s.completeOk rd x).entWords = [] := rfl
@[simp] theorem State.completeOk_rstN (rd : Reg) (x : Nat) : (s.completeOk rd x).rstN = s.rstN := rfl
@[simp] theorem State.completeOk_answer (rd : Reg) (x : Nat) : (s.completeOk rd x).answer = s.answer := rfl
@[simp] theorem State.completeOk_inputs (rd : Reg) (x : Nat) : (s.completeOk rd x).inputs = s.inputs := rfl
@[simp] theorem State.completeOk_fresh (rd : Reg) (x : Nat) : (s.completeOk rd x).fresh = s.fresh := rfl

/-! ### `State.completePred` -/

@[simp] theorem State.completePred_build (rd : Reg) (res : Bool) : (s.completePred rd res).build = s.build := rfl
@[simp] theorem State.completePred_v (rd : Reg) (res : Bool) : (s.completePred rd res).v = s.v.set rd res.toNat := rfl
@[simp] theorem State.completePred_inflight (rd : Reg) (res : Bool) : (s.completePred rd res).inflight = none := rfl
@[simp] theorem State.completePred_done (rd : Reg) (res : Bool) : (s.completePred rd res).done = true := rfl
@[simp] theorem State.completePred_pred (rd : Reg) (res : Bool) : (s.completePred rd res).pred = res := rfl
@[simp] theorem State.completePred_ovr (rd : Reg) (res : Bool) : (s.completePred rd res).ovr = s.ovr := rfl
@[simp] theorem State.completePred_errCode (rd : Reg) (res : Bool) : (s.completePred rd res).errCode = 0 := rfl
@[simp] theorem State.completePred_doneIE (rd : Reg) (res : Bool) : (s.completePred rd res).doneIE = s.doneIE := rfl
@[simp] theorem State.completePred_ovrIE (rd : Reg) (res : Bool) : (s.completePred rd res).ovrIE = s.ovrIE := rfl
@[simp] theorem State.completePred_cmdLast (rd : Reg) (res : Bool) : (s.completePred rd res).cmdLast = s.cmdLast := rfl
@[simp] theorem State.completePred_init (rd : Reg) (res : Bool) : (s.completePred rd res).init = s.init.set rd (allLoaded s.build) := rfl
@[simp] theorem State.completePred_draws (rd : Reg) (res : Bool) : (s.completePred rd res).draws = [] := rfl
@[simp] theorem State.completePred_entWords (rd : Reg) (res : Bool) : (s.completePred rd res).entWords = [] := rfl
@[simp] theorem State.completePred_rstN (rd : Reg) (res : Bool) : (s.completePred rd res).rstN = s.rstN := rfl
@[simp] theorem State.completePred_answer (rd : Reg) (res : Bool) : (s.completePred rd res).answer = s.answer := rfl
@[simp] theorem State.completePred_inputs (rd : Reg) (res : Bool) : (s.completePred rd res).inputs = s.inputs := rfl
@[simp] theorem State.completePred_fresh (rd : Reg) (res : Bool) : (s.completePred rd res).fresh = s.fresh := rfl

/-! ### `State.accept` -/

@[simp] theorem State.accept_build (w : Word) : (s.accept w).build = s.build := rfl
@[simp] theorem State.accept_v (w : Word) : (s.accept w).v = s.v := rfl
@[simp] theorem State.accept_inflight (w : Word) : (s.accept w).inflight = some ⟨w, s.reg (raField w), s.reg (rbField w), s.reg (rmField w)⟩ := rfl
@[simp] theorem State.accept_done (w : Word) : (s.accept w).done = false := rfl
@[simp] theorem State.accept_pred (w : Word) : (s.accept w).pred = s.pred := rfl
@[simp] theorem State.accept_ovr (w : Word) : (s.accept w).ovr = s.ovr := rfl
@[simp] theorem State.accept_errCode (w : Word) : (s.accept w).errCode = 0 := rfl
@[simp] theorem State.accept_doneIE (w : Word) : (s.accept w).doneIE = s.doneIE := rfl
@[simp] theorem State.accept_ovrIE (w : Word) : (s.accept w).ovrIE = s.ovrIE := rfl
@[simp] theorem State.accept_cmdLast (w : Word) : (s.accept w).cmdLast = w := rfl
@[simp] theorem State.accept_init (w : Word) : (s.accept w).init = s.init := rfl
@[simp] theorem State.accept_draws (w : Word) : (s.accept w).draws = [] := rfl
@[simp] theorem State.accept_entWords (w : Word) : (s.accept w).entWords = [] := rfl
@[simp] theorem State.accept_rstN (w : Word) : (s.accept w).rstN = s.rstN := rfl
@[simp] theorem State.accept_answer (w : Word) : (s.accept w).answer = s.answer := rfl
@[simp] theorem State.accept_inputs (w : Word) : (s.accept w).inputs = s.inputs := rfl
@[simp] theorem State.accept_fresh (w : Word) : (s.accept w).fresh = s.fresh := rfl

/-! ### `State.refuse` -/

@[simp] theorem State.refuse_build (w : Word) : (s.refuse w).build = s.build := rfl
@[simp] theorem State.refuse_v (w : Word) : (s.refuse w).v = s.v := rfl
@[simp] theorem State.refuse_inflight (w : Word) : (s.refuse w).inflight = s.inflight := rfl
@[simp] theorem State.refuse_done (w : Word) : (s.refuse w).done = true := rfl
@[simp] theorem State.refuse_pred (w : Word) : (s.refuse w).pred = s.pred := rfl
@[simp] theorem State.refuse_ovr (w : Word) : (s.refuse w).ovr = s.ovr := rfl
@[simp] theorem State.refuse_errCode (w : Word) : (s.refuse w).errCode = 1 := rfl
@[simp] theorem State.refuse_doneIE (w : Word) : (s.refuse w).doneIE = s.doneIE := rfl
@[simp] theorem State.refuse_ovrIE (w : Word) : (s.refuse w).ovrIE = s.ovrIE := rfl
@[simp] theorem State.refuse_cmdLast (w : Word) : (s.refuse w).cmdLast = w := rfl
@[simp] theorem State.refuse_init (w : Word) : (s.refuse w).init = s.init := rfl
@[simp] theorem State.refuse_draws (w : Word) : (s.refuse w).draws = s.draws := rfl
@[simp] theorem State.refuse_entWords (w : Word) : (s.refuse w).entWords = s.entWords := rfl
@[simp] theorem State.refuse_rstN (w : Word) : (s.refuse w).rstN = s.rstN := rfl
@[simp] theorem State.refuse_answer (w : Word) : (s.refuse w).answer = s.answer := rfl
@[simp] theorem State.refuse_inputs (w : Word) : (s.refuse w).inputs = s.inputs := rfl
@[simp] theorem State.refuse_fresh (w : Word) : (s.refuse w).fresh = s.fresh := rfl

/-! ### `State.reply` -/

@[simp] theorem State.reply_build (a : Answer) : (s.reply a).build = s.build := rfl
@[simp] theorem State.reply_v (a : Answer) : (s.reply a).v = s.v := rfl
@[simp] theorem State.reply_inflight (a : Answer) : (s.reply a).inflight = s.inflight := rfl
@[simp] theorem State.reply_done (a : Answer) : (s.reply a).done = s.done := rfl
@[simp] theorem State.reply_pred (a : Answer) : (s.reply a).pred = s.pred := rfl
@[simp] theorem State.reply_ovr (a : Answer) : (s.reply a).ovr = s.ovr := rfl
@[simp] theorem State.reply_errCode (a : Answer) : (s.reply a).errCode = s.errCode := rfl
@[simp] theorem State.reply_doneIE (a : Answer) : (s.reply a).doneIE = s.doneIE := rfl
@[simp] theorem State.reply_ovrIE (a : Answer) : (s.reply a).ovrIE = s.ovrIE := rfl
@[simp] theorem State.reply_cmdLast (a : Answer) : (s.reply a).cmdLast = s.cmdLast := rfl
@[simp] theorem State.reply_init (a : Answer) : (s.reply a).init = s.init := rfl
@[simp] theorem State.reply_draws (a : Answer) : (s.reply a).draws = s.draws := rfl
@[simp] theorem State.reply_entWords (a : Answer) : (s.reply a).entWords = s.entWords := rfl
@[simp] theorem State.reply_rstN (a : Answer) : (s.reply a).rstN = s.rstN := rfl
@[simp] theorem State.reply_answer (a : Answer) : (s.reply a).answer = some a := rfl
@[simp] theorem State.reply_inputs (a : Answer) : (s.reply a).inputs = s.inputs := rfl
@[simp] theorem State.reply_fresh (a : Answer) : (s.reply a).fresh = s.fresh + 1 := rfl

/-! ### `State.assertReset` -/

@[simp] theorem State.assertReset_build : s.assertReset.build = s.build := rfl
@[simp] theorem State.assertReset_v : s.assertReset.v = Vector.ofFn (fun i : Fin 8 => anyOperand s.build (s.fresh + i.val)) := rfl
@[simp] theorem State.assertReset_inflight : s.assertReset.inflight = none := rfl
@[simp] theorem State.assertReset_done : s.assertReset.done = false := rfl
@[simp] theorem State.assertReset_pred : s.assertReset.pred = false := rfl
@[simp] theorem State.assertReset_ovr : s.assertReset.ovr = false := rfl
@[simp] theorem State.assertReset_errCode : s.assertReset.errCode = 0 := rfl
@[simp] theorem State.assertReset_doneIE : s.assertReset.doneIE = false := rfl
@[simp] theorem State.assertReset_ovrIE : s.assertReset.ovrIE = false := rfl
@[simp] theorem State.assertReset_cmdLast : s.assertReset.cmdLast = 0 := rfl
@[simp] theorem State.assertReset_init : s.assertReset.init = Vector.replicate 8 0 := rfl
@[simp] theorem State.assertReset_draws : s.assertReset.draws = [] := rfl
@[simp] theorem State.assertReset_entWords : s.assertReset.entWords = [] := rfl
@[simp] theorem State.assertReset_rstN : s.assertReset.rstN = false := rfl
@[simp] theorem State.assertReset_answer : s.assertReset.answer = none := rfl
@[simp] theorem State.assertReset_inputs : s.assertReset.inputs = s.inputs := rfl
@[simp] theorem State.assertReset_fresh : s.assertReset.fresh = s.fresh + 8 := rfl

end Sys2Proof.Machine
end

