-- ==== Sys2Proof/Laws/Operands.lean ====
section
/-! SUPPORT. The laws of limbs, operand registers and ghost bits: a limb read after a write of it, the other limbs kept,
an operand as the sum of its limbs, and what each operation does to a register. -/

namespace Sys2Proof.Machine

/-! ## Limbs (R53) -/

theorem two_pow_limb_succ (k : Nat) : 2 ^ (32 * (k + 1)) = 2 ^ (32 * k) * 2 ^ 32 := by
  rw [← Nat.pow_add]; congr 1

/-- `setLimb` in the form of a quotient and a remainder at the limb's lower edge. -/
theorem setLimb_split (x k : Nat) (w : Word) :
    setLimb x k w = (x / 2 ^ (32 * (k + 1)) * 2 ^ 32 + w.toNat) * 2 ^ (32 * k) + x % 2 ^ (32 * k) := by
  simp only [setLimb, two_pow_limb_succ]; ring

theorem setLimb_div (x k : Nat) (w : Word) :
    setLimb x k w / 2 ^ (32 * k) = x / 2 ^ (32 * (k + 1)) * 2 ^ 32 + w.toNat := by
  have hp : 0 < 2 ^ (32 * k) := by positivity
  rw [setLimb_split, Nat.add_comm, Nat.add_mul_div_right _ _ hp, Nat.div_eq_of_lt (Nat.mod_lt _ hp), Nat.zero_add]

theorem setLimb_mod (x k : Nat) (w : Word) : setLimb x k w % 2 ^ (32 * k) = x % 2 ^ (32 * k) := by
  rw [setLimb_split, Nat.add_comm, Nat.add_mul_mod_self_right, Nat.mod_mod]

theorem setLimb_div_succ (x k : Nat) (w : Word) :
    setLimb x k w / 2 ^ (32 * (k + 1)) = x / 2 ^ (32 * (k + 1)) := by
  have hw : w.toNat < 2 ^ 32 := w.isLt
  have h2 : 0 < 2 ^ 32 := by positivity
  conv_lhs => rw [two_pow_limb_succ, ← Nat.div_div_eq_div_mul, setLimb_div]
  rw [Nat.add_comm, Nat.add_mul_div_right _ _ h2, Nat.div_eq_of_lt hw, Nat.zero_add]

/-- A limb reads back as it was written. -/
theorem limbOf_setLimb_same (x k : Nat) (w : Word) : limbOf (setLimb x k w) k = w := by
  apply BitVec.eq_of_toNat_eq
  have hw : w.toNat < 2 ^ 32 := w.isLt
  simp only [limbOf, BitVec.toNat_ofNat, setLimb_div]
  rw [Nat.add_comm, Nat.add_mul_mod_self_right, Nat.mod_eq_of_lt hw]

/-- Writing a limb leaves every other limb. -/
theorem limbOf_setLimb_ne (x k j : Nat) (w : Word) (h : j ≠ k) : limbOf (setLimb x k w) j = limbOf x j := by
  rcases Nat.lt_or_gt_of_ne h with hlt | hgt
  · -- `j < k`: limb `j` lies in the kept remainder
    have hsplit : 2 ^ (32 * k) = 2 ^ (32 * j) * (2 ^ 32 * 2 ^ (32 * (k - j - 1))) := by
      rw [← Nat.pow_add, ← Nat.pow_add]; congr 1; omega
    have key : ∀ y, y / 2 ^ (32 * j) % 2 ^ 32 = y % 2 ^ (32 * k) / 2 ^ (32 * j) % 2 ^ 32 := by
      intro y
      rw [hsplit, Nat.mod_mul_right_div_self, Nat.mod_mul_right_mod]
    apply BitVec.eq_of_toNat_eq
    simp only [limbOf, BitVec.toNat_ofNat]
    rw [key (setLimb x k w), key x, setLimb_mod]
  · -- `j > k`: limb `j` lies in the kept quotient
    have hsplit : 2 ^ (32 * j) = 2 ^ (32 * (k + 1)) * 2 ^ (32 * (j - k - 1)) := by
      rw [← Nat.pow_add]; congr 1; omega
    simp only [limbOf]
    rw [hsplit, ← Nat.div_div_eq_div_mul, ← Nat.div_div_eq_div_mul, setLimb_div_succ]

/-- An operand stays in range when a limb of it is written. -/
theorem setLimb_lt (x k l : Nat) (w : Word) (hx : x < 2 ^ (32 * l)) (hk : k < l) : setLimb x k w < 2 ^ (32 * l) := by
  have hsplit : 2 ^ (32 * l) = 2 ^ (32 * (k + 1)) * 2 ^ (32 * (l - k - 1)) := by
    rw [← Nat.pow_add]; congr 1; omega
  have hp : 0 < 2 ^ (32 * (k + 1)) := by positivity
  have hq : setLimb x k w / 2 ^ (32 * (k + 1)) < 2 ^ (32 * (l - k - 1)) := by
    rw [setLimb_div_succ, Nat.div_lt_iff_lt_mul hp, Nat.mul_comm, ← hsplit]; exact hx
  rw [hsplit, Nat.mul_comm]
  exact (Nat.div_lt_iff_lt_mul hp).1 hq

/-- The lowest `l` limbs give the operand modulo `2^(32*l)` (R53). -/
theorem sum_limbs_mod (x l : Nat) :
    ((List.range l).map (fun k => (limbOf x k).toNat * 2 ^ (32 * k))).sum = x % 2 ^ (32 * l) := by
  induction l with
  | zero => simp [Nat.mod_one]
  | succ l ih =>
    rw [List.range_succ, List.map_append, List.sum_append, ih, two_pow_limb_succ, Nat.mod_mul]
    simp [limbOf, Nat.mul_comm]

/-- Writing the limbs `0` to `l-1` of `y`, lowest first. -/
theorem foldl_setLimb_mod (x y l : Nat) :
    (List.range l).foldl (fun z k => setLimb z k (limbOf y k)) x % 2 ^ (32 * l) = y % 2 ^ (32 * l) := by
  induction l with
  | zero => simp [Nat.mod_one]
  | succ l ih =>
    rw [List.range_succ, List.foldl_append]
    simp only [List.foldl_cons, List.foldl_nil]
    rw [two_pow_limb_succ, Nat.mod_mul, Nat.mod_mul, setLimb_mod, ih, setLimb_div, Nat.add_comm (_ * _),
      Nat.add_mul_mod_self_right]
    simp [limbOf]

/-! ## Registers -/

theorem State.reg_congr {s t : State} (h : t.v = s.v) (i : Reg) : t.reg i = s.reg i := by
  simp only [State.reg, h]

@[simp] theorem State.withInputs_reg (s : State) (rest : List Input) (i : Reg) : (s.withInputs rest).reg i = s.reg i := rfl
@[simp] theorem State.overrun_reg (s : State) (i : Reg) : s.overrun.reg i = s.reg i := rfl
@[simp] theorem State.statusWrite_reg (s : State) (w : Word) (i : Reg) : (s.statusWrite w).reg i = s.reg i := rfl
@[simp] theorem State.irqenWrite_reg (s : State) (w : Word) (i : Reg) : (s.irqenWrite w).reg i = s.reg i := rfl
@[simp] theorem State.endCommand_reg (s : State) (c : BitVec 4) (i : Reg) : (s.endCommand c).reg i = s.reg i := rfl
@[simp] theorem State.raise_reg (s : State) (e : ErrorCode) (i : Reg) : (s.raise e).reg i = s.reg i := rfl
@[simp] theorem State.accept_reg (s : State) (w : Word) (i : Reg) : (s.accept w).reg i = s.reg i := rfl
@[simp] theorem State.refuse_reg (s : State) (w : Word) (i : Reg) : (s.refuse w).reg i = s.reg i := rfl
@[simp] theorem State.reply_reg (s : State) (a : Answer) (i : Reg) : (s.reply a).reg i = s.reg i := rfl

/-- A vector indexed by a register after one entry is set. -/
theorem get_set_reg {α : Type} (v : Vector α 8) (i j : Reg) (x : α) :
    (v.set i x)[j] = if j = i then x else v[j] := by
  by_cases h : j = i
  · subst h; simp
  · have : (i : Nat) ≠ (j : Nat) := fun e => h (Fin.ext e.symm)
    simp [h, this]

theorem State.completeOk_reg (s : State) (rd i : Reg) (x : Nat) :
    (s.completeOk rd x).reg i = if i = rd then x else s.reg i := by
  simp only [State.reg, State.completeOk_v, get_set_reg]

theorem State.completePred_reg (s : State) (rd i : Reg) (res : Bool) :
    (s.completePred rd res).reg i = if i = rd then res.toNat else s.reg i := by
  simp only [State.reg, State.completePred_v, get_set_reg]

theorem State.writeLimb_reg (s : State) (i j : Reg) (k : Nat) (w : Word) :
    (s.writeLimb i k w).reg j = if j = i then setLimb (s.reg i) k w else s.reg j := by
  simp only [State.reg, State.writeLimb_v, get_set_reg]

theorem State.assertReset_reg (s : State) (i : Reg) :
    s.assertReset.reg i = anyOperand s.build (s.fresh + i.val) := by
  simp [State.reg, State.assertReset_v]

/-! ## Ghost bits (R23) -/

theorem State.loaded_iff (s : State) (i : Reg) :
    s.loaded i = true ↔ ∀ k, k < s.build.limbs → s.initBit i k = true := by
  simp [State.loaded]

theorem State.loaded_congr {s t : State} (hb : t.build = s.build) (hi : t.init = s.init) (i : Reg) :
    t.loaded i = s.loaded i := by
  simp only [State.loaded, State.initBit, hb, hi]

/-- The ghost bits of a loaded register are exactly those of its limbs. -/
theorem allLoaded_bit (b : Build) (hb : b.limbs ≤ 128) (k : Nat) :
    (allLoaded b).getLsbD k = decide (k < b.limbs) := by
  by_cases hk : k < 128
  · rw [allLoaded, BitVec.getLsbD_ofNat, Nat.testBit_two_pow_sub_one, decide_eq_true hk, Bool.true_and]
  · rw [BitVec.getLsbD_of_ge _ k (Nat.le_of_not_lt hk), decide_eq_false (by omega)]

theorem State.completeOk_initBit (s : State) (rd i : Reg) (x k : Nat) :
    (s.completeOk rd x).initBit i k = if i = rd then (allLoaded s.build).getLsbD k else s.initBit i k := by
  simp only [State.initBit, State.completeOk_init, get_set_reg]; split <;> rfl

theorem State.writeLimb_initBit (s : State) (i j : Reg) (k l : Nat) (w : Word) (hk : k < 128) :
    (s.writeLimb i k w).initBit j l = (s.initBit j l || (decide (j = i) && decide (l = k))) := by
  simp only [State.initBit, State.writeLimb_init, get_set_reg]
  by_cases h : j = i
  · subst h; simp [BitVec.getLsbD_twoPow]
    by_cases hl : k = l
    · subst hl; simp [hk]
    · simp [hl, Ne.symm hl]
  · simp [h]

end Sys2Proof.Machine
end

