-- ==== Sys2Proof/Laws/Ops.lean ====
section
/-! SUPPORT. What each shared operation can do, said once: how a command ends, what the engine's step can answer, and
which step answers a next state. -/

namespace Sys2Proof.Machine

/-! ## How a command ends -/

theorem Build.legal_iff (b : Build) :
    b.legal = true ↔ (64 ≤ b.limbs ∧ b.limbs ≤ 128) ∧ b.base % 0x2000 = 0 := by
  simp [Build.legal]

theorem Build.limbs_le (b : Build) (h : b.legal = true) : 64 ≤ b.limbs ∧ b.limbs ≤ 128 := ((Build.legal_iff b).1 h).1

/-- `raise E` leaves a failed command (R143). -/
theorem State.raise_failed (s : State) (e : ErrorCode) : Failed s (s.raise e) e :=
  ⟨fun _ => ⟨rfl, rfl⟩, rfl, ⟨rfl, rfl, rfl, rfl, rfl⟩, rfl, rfl, rfl, rfl, rfl, rfl, rfl, rfl, rfl⟩

/-- `complete_ok(val)` leaves a completed command and PRED as it was (R142). -/
theorem State.completeOk_completed (s : State) (rd : Reg) (x : Nat) :
    Completed s (s.completeOk rd x) rd x ∧ (s.completeOk rd x).pred = s.pred := by
  refine ⟨⟨by simp [State.completeOk_reg], fun hb => ?_, fun r hr => ⟨by simp [State.completeOk_reg, hr], ?_⟩,
    ⟨rfl, rfl, rfl, rfl, rfl⟩, rfl, rfl, rfl, rfl, rfl, rfl, rfl, rfl, rfl⟩, rfl⟩
  · rw [State.loaded_iff]
    intro k hk
    rw [State.completeOk_initBit, if_pos rfl, allLoaded_bit _ (Build.limbs_le _ hb).2]
    simpa using hk
  · rw [State.completeOk_init, get_set_reg, if_neg hr]

/-- A predicate command's completion also sets PRED to its result (R34). -/
theorem State.completePred_completed (s : State) (rd : Reg) (res : Bool) :
    Completed s (s.completePred rd res) rd res.toNat ∧ (s.completePred rd res).pred = res :=
  ⟨(s.completeOk_completed rd res.toNat).1, rfl⟩

/-! ## The engine -/

/-- A command's rule ends in `complete_ok`, in `raise`, or, for a PRIMETEST that still needs a witness, changes nothing;
it never faults and is never refused. -/
theorem exec_cases (i : Instr) (s : State) :
    (∃ e, exec i s = .next (s.raise e))
      ∨ (i.isPredicate = false ∧ ∃ x, exec i s = .next (s.completeOk i.dest x))
      ∨ (i.isPredicate = true ∧ ∃ res, exec i s = .next (s.completePred i.dest res))
      ∨ (∃ rd ra rounds, i = .primetest rd ra rounds ∧ exec i s = .next s) := by
  cases i with
  | modred rd ra rm =>
    simp only [exec, execModred]
    split
    · exact Or.inl ⟨_, rfl⟩
    · exact Or.inr (Or.inl ⟨rfl, _, rfl⟩)
  | modmul rd ra rb rm =>
    simp only [exec, execModmul]
    split
    · exact Or.inl ⟨_, rfl⟩
    · exact Or.inr (Or.inl ⟨rfl, _, rfl⟩)
  | modexp rd ra rb rm =>
    simp only [exec, execModexp]
    split
    · exact Or.inl ⟨_, rfl⟩
    · exact Or.inr (Or.inl ⟨rfl, _, rfl⟩)
  | modinv rd ra rm =>
    simp only [exec, execModinv]
    split
    · exact Or.inl ⟨_, rfl⟩
    · split
      · exact Or.inl ⟨_, rfl⟩
      · exact Or.inr (Or.inl ⟨rfl, _, rfl⟩)
  | fermat2 rd ra =>
    simp only [exec, execFermat2]
    split
    · exact Or.inl ⟨_, rfl⟩
    · exact Or.inr (Or.inr (Or.inl ⟨rfl, _, rfl⟩))
  | mrround rd ra rb =>
    simp only [exec, execMrround]
    split
    · exact Or.inr (Or.inr (Or.inl ⟨rfl, _, rfl⟩))
    · split
      · exact Or.inr (Or.inr (Or.inl ⟨rfl, _, rfl⟩))
      · exact Or.inl ⟨_, rfl⟩
  | primetest rd ra rounds =>
    simp only [exec, execPrimetest]
    split
    · exact Or.inr (Or.inr (Or.inl ⟨rfl, _, rfl⟩))
    · exact Or.inr (Or.inr (Or.inr ⟨_, _, _, rfl, rfl⟩))

/-- The engine's turn: nothing, the decoded command's rule, or the fault of a word that is no command. -/
theorem State.engineTurn_cases (s : State) :
    ((s.rstN = false ∨ s.inflight = none) ∧ s.engineTurn = .next s)
      ∨ (s.rstN = true ∧ ∃ f, s.inflight = some f ∧
          ((∃ i, decode f.word = .ok i ∧ s.engineTurn = exec i s)
            ∨ (∃ e, decode f.word = .error e) ∧ s.engineTurn = .fault .illegalInFlight)) := by
  cases hr : s.rstN with
  | false => exact Or.inl ⟨Or.inl rfl, by simp [State.engineTurn, hr]⟩
  | true =>
    cases hf : s.inflight with
    | none => exact Or.inl ⟨Or.inr rfl, by simp [State.engineTurn, hr, State.command, hf]⟩
    | some f =>
      refine Or.inr ⟨rfl, f, rfl, ?_⟩
      cases hd : decode f.word with
      | ok i => exact Or.inl ⟨i, rfl, by simp [State.engineTurn, hr, State.command, hf, hd]⟩
      | error e => exact Or.inr ⟨⟨e, rfl⟩, by simp [State.engineTurn, hr, State.command, hf, hd]⟩

/-! ## The entropy port -/

/-- An offered word does not pass, or it completes a witness, or it is kept for one (R26, R118). -/
theorem State.entropyTurn_cases (s : State) (method : WitnessDraw) (word : Word) :
    (s.entReq = false ∧ s.entropyTurn method word = s)
      ∨ (s.entReq = true ∧ ∃ f, s.inflight = some f ∧
          ((∃ a, method f.a (s.entWords ++ [word]) = some a ∧ witnessInRange f.a a = true
              ∧ s.entropyTurn method word = { s with draws := s.draws ++ [a], entWords := [] })
            ∨ ((∀ a, method f.a (s.entWords ++ [word]) = some a → witnessInRange f.a a = false)
              ∧ s.entropyTurn method word = { s with entWords := s.entWords ++ [word] }))) := by
  cases hf : s.inflight with
  | none => exact Or.inl ⟨by simp [State.entReq, hf], by simp only [State.entropyTurn, hf]⟩
  | some f =>
    cases he : s.entReq with
    | false => exact Or.inl ⟨rfl, by simp only [State.entropyTurn, hf, he]; rfl⟩
    | true =>
      refine Or.inr ⟨rfl, f, rfl, ?_⟩
      cases hm : method f.a (s.entWords ++ [word]) with
      | none => exact Or.inr ⟨fun a h => (by cases h), by simp only [State.entropyTurn, hf, he, hm]; rfl⟩
      | some a =>
        cases hw : witnessInRange f.a a with
        | true => exact Or.inl ⟨a, rfl, hw, (by simp only [State.entropyTurn, hf, he, hm, Option.filter_some, hw]; rfl)⟩
        | false =>
          exact Or.inr ⟨fun b hb => by cases hb; exact hw, by simp only [State.entropyTurn, hf, he, hm, Option.filter_some, hw]; rfl⟩

/-! ## Abort -/

theorem State.abort_idle (s : State) (h : s.inflight = none) : s.abort = s := by simp only [State.abort, h]

theorem State.abort_busy (s : State) (f : InFlight) (h : s.inflight = some f) :
    s.abort = { s.raise .aborted with v := s.v.set (rdField f.word) (anyOperand s.build s.fresh)
                                      init := s.init.set (rdField f.word) 0
                                      fresh := s.fresh + 1 } := by
  simp only [State.abort, h]

theorem anyOperand_lt (b : Build) (n : Nat) : anyOperand b n < 2 ^ b.width :=
  Nat.mod_lt _ (by positivity)

/-- An abort ends the command with ABORTED (R145). -/
theorem State.abort_ended (s : State) (f : InFlight) (h : s.inflight = some f) :
    Ended s.abort (ErrorCode.code .aborted) := by
  rw [State.abort_busy s f h]; exact ⟨rfl, rfl, rfl, rfl, rfl⟩

/-- An abort changes the destination register only (R145). -/
theorem State.abort_reg (s : State) (f : InFlight) (h : s.inflight = some f) (i : Reg) :
    s.abort.reg i = if i = rdField f.word then anyOperand s.build s.fresh else s.reg i := by
  rw [State.abort_busy s f h]; exact get_set_reg _ _ _ _

/-- An abort clears the ghost bits of the destination register only (R145). -/
theorem State.abort_init (s : State) (f : InFlight) (h : s.inflight = some f) (i : Reg) :
    s.abort.init[i] = if i = rdField f.word then 0 else s.init[i] := by
  rw [State.abort_busy s f h]; exact get_set_reg _ _ _ _

/-! ## Submission -/

theorem State.busy_iff (s : State) : s.busy = true ↔ ∃ f, s.inflight = some f := by
  simp [State.busy, Option.isSome_iff_exists]

theorem State.busy_false_iff (s : State) : s.busy = false ↔ s.inflight = none := by
  simp [State.busy]

/-- The four outcomes of a CMD write (R141). -/
theorem State.submit_cases (s : State) (w : Word) :
    (s.busy = true ∧ s.submit w = .next s.overrun)
      ∨ (s.busy = false ∧ (∃ e, decode w = .error e) ∧ s.submit w = .next (s.refuse w))
      ∨ (s.busy = false ∧ ∃ i, decode w = .ok i ∧
          ((i.reads.all s.loaded = true ∧ s.submit w = .next (s.accept w))
            ∨ (i.reads.all s.loaded = false ∧ s.submit w = .fault .uninitOperand))) := by
  cases hb : s.busy with
  | true => exact Or.inl ⟨rfl, by simp [State.submit, hb]⟩
  | false =>
    refine Or.inr ?_
    cases hd : decode w with
    | error e => exact Or.inl ⟨rfl, ⟨e, rfl⟩, by simp [State.submit, hb, hd]⟩
    | ok i =>
      refine Or.inr ⟨rfl, i, rfl, ?_⟩
      cases hl : i.reads.all s.loaded with
      | true => exact Or.inl ⟨rfl, by simp only [State.submit, hb, hd, hl]; rfl⟩
      | false => exact Or.inr ⟨rfl, by simp only [State.submit, hb, hd, hl]; rfl⟩

/-! ## The host port -/

/-- An admitted write outside reset is its effect with an OK answer (R56). -/
theorem State.hostTurn_write (s : State) (t : Transaction) (hr : s.rstN = true) (ha : t.admitted = true)
    (hd : t.dir = .write) : s.hostTurn t = replyWrite (s.memWrite t.off t.wdata) := by
  simp [State.hostTurn, hr, ha, hd]

/-- An admitted read outside reset answers the value and moves nothing else (R55). -/
theorem State.hostTurn_read (s : State) (t : Transaction) (hr : s.rstN = true) (ha : t.admitted = true)
    (hd : t.dir = .read) : s.hostTurn t = .next (s.reply ⟨.ok, some (s.memRead t.off)⟩) := by
  simp [State.hostTurn, hr, ha, hd]

/-- A host turn that answers a next state: a refused access, a read, or a write (R55 to R57). -/
theorem State.hostTurn_next (s t : State) (tr : Transaction) (h : s.hostTurn tr = .next t) :
    s.rstN = true ∧
      ((tr.admitted = false ∧ t = s.reply tr.errAnswer)
        ∨ (tr.admitted = true ∧ tr.dir = .read ∧ t = s.reply ⟨.ok, some (s.memRead tr.off)⟩)
        ∨ (tr.admitted = true ∧ tr.dir = .write ∧ ∃ u, s.memWrite tr.off tr.wdata = .next u ∧ t = u.reply ⟨.ok, none⟩)) := by
  cases hr : s.rstN with
  | false => simp [State.hostTurn, hr] at h
  | true =>
    refine ⟨rfl, ?_⟩
    cases ha : tr.admitted with
    | false =>
      simp only [State.hostTurn, hr, ha] at h
      exact Or.inl ⟨rfl, (Host.Outcome.next.inj h).symm⟩
    | true =>
      cases hd : tr.dir with
      | read =>
        rw [s.hostTurn_read tr hr ha hd] at h
        exact Or.inr (Or.inl ⟨rfl, rfl, (Host.Outcome.next.inj h).symm⟩)
      | write =>
        rw [s.hostTurn_write tr hr ha hd] at h
        cases hm : s.memWrite tr.off tr.wdata with
        | next u =>
          rw [hm] at h
          exact Or.inr (Or.inr ⟨rfl, rfl, u, rfl, (Host.Outcome.next.inj h).symm⟩)
        | fault f => rw [hm] at h; cases h
        | refused r => rw [hm] at h; cases h

/-- What a write can leave (R56): the state itself, an abort, a STATUS or IRQEN write, a submission, or a window
write. -/
theorem State.memWrite_next (s u : State) (off : Offset) (w : Word) (h : s.memWrite off w = .next u) :
    u = s ∨ (targetOf off = .ctrl ∧ w.getLsbD 0 = true ∧ u = s.abort) ∨ (targetOf off = .status ∧ u = s.statusWrite w)
      ∨ (targetOf off = .irqen ∧ u = s.irqenWrite w) ∨ (targetOf off = .cmd ∧ s.submit w = .next u)
      ∨ (∃ i k, targetOf off = .window i k ∧ u = s.windowWrite i k w) := by
  cases ht : targetOf off with
  | id => simp only [State.memWrite, ht] at h; exact Or.inl (Host.Outcome.next.inj h).symm
  | param => simp only [State.memWrite, ht] at h; exact Or.inl (Host.Outcome.next.inj h).symm
  | reserved => simp only [State.memWrite, ht] at h; exact Or.inl (Host.Outcome.next.inj h).symm
  | ctrl =>
    simp only [State.memWrite, ht] at h
    cases hw : w.getLsbD 0 with
    | true =>
      rw [hw, if_pos rfl] at h
      exact Or.inr (Or.inl ⟨rfl, rfl, (Host.Outcome.next.inj h).symm⟩)
    | false =>
      rw [hw, if_neg (by decide)] at h
      exact Or.inl (Host.Outcome.next.inj h).symm
  | status =>
    simp only [State.memWrite, ht] at h
    exact Or.inr (Or.inr (Or.inl ⟨rfl, (Host.Outcome.next.inj h).symm⟩))
  | irqen =>
    simp only [State.memWrite, ht] at h
    exact Or.inr (Or.inr (Or.inr (Or.inl ⟨rfl, (Host.Outcome.next.inj h).symm⟩)))
  | cmd =>
    simp only [State.memWrite, ht] at h
    exact Or.inr (Or.inr (Or.inr (Or.inr (Or.inl ⟨rfl, h⟩))))
  | window i k =>
    simp only [State.memWrite, ht] at h
    exact Or.inr (Or.inr (Or.inr (Or.inr (Or.inr ⟨i, k, rfl, (Host.Outcome.next.inj h).symm⟩))))

/-! ## The step -/

/-- A step that answers a next state is one agent's turn (R62, R158). -/
theorem step_next (s t : State) (h : step s = .next t) :
    (s.engineNext = true ∧ s.atTurn.engineTurn = .next t)
      ∨ (∃ tr rest, s.inputs = .host tr :: rest ∧ s.atTurn.hostTurn tr = .next t)
      ∨ (∃ word made rest, s.inputs = .entropy word made :: rest ∧ t = s.atTurn.entropyTurn (fun _ _ => made) word)
      ∨ (∃ level rest, s.inputs = .resetPin level :: rest ∧ t = s.atTurn.drivePin level) := by
  cases hi : s.inputs with
  | nil =>
    have hs : s.atTurn = s := by
      simp only [State.atTurn, State.withInputs, hi, List.tail_nil]
      rw [← hi]
    simp only [step, hi] at h
    exact Or.inl ⟨by simp [State.engineNext, hi], by rw [hs]; exact h⟩
  | cons x rest =>
    have hs : s.atTurn = s.withInputs rest := by simp [State.atTurn, hi]
    cases x with
    | host tr => simp only [step, hi] at h; exact Or.inr (Or.inl ⟨tr, rest, rfl, by rw [hs]; exact h⟩)
    | engine =>
      simp only [step, hi] at h
      exact Or.inl ⟨by simp [State.engineNext, hi], by rw [hs]; exact h⟩
    | entropy word made =>
      simp only [step, hi] at h
      exact Or.inr (Or.inr (Or.inl ⟨word, made, rest, rfl, by rw [hs]; exact (Host.Outcome.next.inj h).symm⟩))
    | resetPin level =>
      simp only [step, hi] at h
      exact Or.inr (Or.inr (Or.inr ⟨level, rest, rfl, by rw [hs]; exact (Host.Outcome.next.inj h).symm⟩))

end Sys2Proof.Machine
end

