-- ==== Sys2Proof/Laws/HostPort.lean ====
section
/-! SUPPORT. The laws of the register map and of a host access as a step. -/

namespace Sys2Proof.Machine

/-! ## The register map (R52, R53) -/

theorem windowOffset_toNat (i : Reg) (k : Nat) (hk : k < 128) :
    (windowOffset i k).toNat = 0x1000 + 0x200 * i.val + 4 * k := by
  have := i.isLt
  simp only [windowOffset, BitVec.toNat_ofNat]
  omega

/-- The offset of limb `k` of `Vi` names limb `k` of `Vi`. -/
theorem targetOf_windowOffset : ∀ (i : Reg) (k : Fin 128), targetOf (windowOffset i k.val) = .window i k.val := by
  decide +kernel

/-- An offset of the form of R53 is a window offset. -/
theorem targetOf_of_toNat (off : Offset) (i : Reg) (k : Nat) (hk : k < 128)
    (h : off.toNat = 0x1000 + 0x200 * i.val + 4 * k) : targetOf off = .window i k := by
  have : off = windowOffset i k := BitVec.eq_of_toNat_eq (by rw [h, windowOffset_toNat i k hk])
  rw [this]
  exact targetOf_windowOffset i ⟨k, hk⟩

/-- Bit 12 of an offset says on which side of `0x1000` it lies. -/
theorem offset_bit12 (off : Offset) : off.getLsbD 12 = decide (0x1000 ≤ off.toNat) := by
  have hlt : off.toNat < 8192 := off.isLt
  rw [BitVec.getLsbD, Nat.testBit_eq_decide_div_mod_eq]
  apply decide_eq_decide.2
  omega

/-- What a target says of its offset (R52). -/
theorem targetOf_spec (off : Offset) :
    match targetOf off with
    | .id => off = 0x000
    | .param => off = 0x004
    | .ctrl => off = 0x008
    | .status => off = 0x00C
    | .irqen => off = 0x010
    | .cmd => off = 0x014
    | .reserved => off.toNat < 0x1000 ∧ off ∉ [0x000#13, 0x004#13, 0x008#13, 0x00C#13, 0x010#13, 0x014#13]
    | .window i k => 0x1000 ≤ off.toNat ∧ k < 128 ∧ off.toNat / 4 = (0x1000 + 0x200 * i.val + 4 * k) / 4 := by
  have heq : ∀ n, off.toNat = n → off = BitVec.ofNat 13 n := fun n h => by rw [← h]; simp
  unfold targetOf
  rw [offset_bit12]
  by_cases h : 0x1000 ≤ off.toNat
  · rw [decide_eq_true h, if_pos rfl]
    have hlt : off.toNat < 8192 := off.isLt
    have hi : ((off.extractLsb' 9 3).toFin : Fin 8).val = off.toNat / 2 ^ 9 % 2 ^ 3 := by
      rw [← Nat.shiftRight_eq_div_pow]; rfl
    have hk : (off.extractLsb' 2 7).toNat = off.toNat / 2 ^ 2 % 2 ^ 7 := by
      rw [BitVec.extractLsb'_toNat, Nat.shiftRight_eq_div_pow]
    refine ⟨h, (off.extractLsb' 2 7).isLt, ?_⟩
    rw [hi, hk]
    omega
  · rw [decide_eq_false h, if_neg (by decide)]
    by_cases h0 : off.toNat = 0
    · simp only [h0]; exact heq _ h0
    by_cases h4 : off.toNat = 4
    · simp only [h4]; exact heq _ h4
    by_cases h8 : off.toNat = 8
    · simp only [h8]; exact heq _ h8
    by_cases h12 : off.toNat = 12
    · simp only [h12]; exact heq _ h12
    by_cases h16 : off.toNat = 16
    · simp only [h16]; exact heq _ h16
    by_cases h20 : off.toNat = 20
    · simp only [h20]; exact heq _ h20
    · simp only
      refine ⟨by omega, fun hmem => ?_⟩
      simp only [List.mem_cons, List.not_mem_nil, or_false] at hmem
      rcases hmem with rfl | rfl | rfl | rfl | rfl | rfl <;> simp_all

/-! ## The STATUS and IRQEN words (R30, R38) -/

/-- STATUS bit by bit (R30). -/
theorem State.statusWord_getLsbD (s : State) (k : Nat) :
    s.statusWord.getLsbD k =
      (decide (k = 0) && s.busy || decide (k = 1) && s.done || decide (k = 2) && s.err || decide (k = 3) && s.pred
        || decide (k = 4) && s.ovr || decide (8 ≤ k) && s.errCode.getLsbD (k - 8)) := by
  simp only [State.statusWord, BitVec.getLsbD_append]
  by_cases h : k < 12
  · interval_cases k <;> simp
  · have hc : s.errCode.getLsbD (k - 8) = false := BitVec.getLsbD_of_ge _ _ (by omega)
    have hk : ¬ k < 1 ∧ ¬ k - 1 < 1 ∧ ¬ k - 1 - 1 < 1 ∧ ¬ k - 1 - 1 - 1 < 1 ∧ ¬ k - 1 - 1 - 1 - 1 < 1
        ∧ ¬ k - 1 - 1 - 1 - 1 - 1 < 3 ∧ ¬ k - 1 - 1 - 1 - 1 - 1 - 3 < 4 ∧ k ≠ 0 ∧ k ≠ 1 ∧ k ≠ 2 ∧ k ≠ 3 ∧ k ≠ 4 := by
      omega
    simp [hk, hc]

/-- IRQEN bit by bit (R38). -/
theorem State.irqenWord_getLsbD (s : State) (k : Nat) :
    s.irqenWord.getLsbD k = (decide (k = 0) && s.doneIE || decide (k = 1) && s.ovrIE) := by
  simp only [State.irqenWord, BitVec.getLsbD_append]
  by_cases h : k < 2
  · interval_cases k <;> simp
  · have hk : ¬ k < 1 ∧ ¬ k - 1 < 1 ∧ k ≠ 0 ∧ k ≠ 1 := by omega
    simp [hk]

/-! ## A host access as a step -/

theorem State.atTurn_host {s : State} {x : Input} {rest : List Input} (h : s.inputs = x :: rest) :
    s.atTurn = s.withInputs rest := by simp [State.atTurn, h]

/-- An effect that answers a next state is answered OK (R56). -/
theorem replyWrite_next {r : Result} {u : State} (h : r = .next u) : replyWrite r = .next (u.reply ⟨.ok, none⟩) := by
  rw [h]; rfl

/-- The step of an admitted host write: its effect, answered OK (R56). -/
theorem step_hostWrites {s : State} {off : Offset} {w : Word} (h : s.hostWrites off w) :
    step s = replyWrite (s.atTurn.memWrite off w) := by
  obtain ⟨hr, t, rest, hi, ha, hd, rfl, rfl⟩ := h
  have hs := State.atTurn_host hi
  have hr' : (s.withInputs rest).rstN = true := hr
  simp only [step, hi]
  rw [hs, State.hostTurn_write _ _ hr' ha hd]

/-- The step of an admitted host read: its value, answered OK (R55). -/
theorem step_hostReads {s : State} {off : Offset} (h : s.hostReads off) :
    step s = .next (s.atTurn.reply ⟨.ok, some (s.atTurn.memRead off)⟩) := by
  obtain ⟨hr, t, rest, hi, ha, hd, rfl⟩ := h
  have hs := State.atTurn_host hi
  have hr' : (s.withInputs rest).rstN = true := hr
  simp only [step, hi]
  rw [hs, State.hostTurn_read _ _ hr' ha hd]

/-- What a host write can leave, as a step: `step_hostWrites` read backwards. -/
theorem step_next_host {s t : State} {tr : Transaction} {rest : List Input} (hi : s.inputs = .host tr :: rest)
    (h : s.atTurn.hostTurn tr = .next t) :
    (t = s.atTurn.reply tr.errAnswer) ∨ (s.hostReads tr.off ∧ t = s.atTurn.reply ⟨.ok, some (s.atTurn.memRead tr.off)⟩)
      ∨ (s.hostWrites tr.off tr.wdata ∧ ∃ u, s.atTurn.memWrite tr.off tr.wdata = .next u ∧ t = u.reply ⟨.ok, none⟩) := by
  obtain ⟨hr, h⟩ := State.hostTurn_next _ _ _ h
  have hr' : s.rstN = true := hr
  rcases h with ⟨_, h⟩ | ⟨ha, hd, h⟩ | ⟨ha, hd, u, hu, h⟩
  · exact Or.inl h
  · exact Or.inr (Or.inl ⟨⟨hr', tr, rest, hi, ha, hd, rfl⟩, h⟩)
  · exact Or.inr (Or.inr ⟨⟨hr', tr, rest, hi, ha, hd, rfl, rfl⟩, u, hu, h⟩)

/-- An admitted offset is a multiple of 4 (R57). -/
theorem Transaction.admitted_aligned {t : Transaction} (h : t.admitted = true) : t.off.toNat % 4 = 0 := by
  simp only [Transaction.admitted, Bool.and_eq_true, beq_iff_eq] at h
  have h2 := congrArg BitVec.toNat h.1.2
  rw [BitVec.extractLsb'_toNat] at h2
  simpa using h2

end Sys2Proof.Machine
end

