-- ==== Sys2Proof/Laws/PerInstr.lean ====
section
/-! SUPPORT. A law of the encoder for every constructor: the opcode of the table and no reserved bit, whatever the
operands. -/

namespace Sys2Proof.Laws

/-- The opcode byte of the table of R74. -/
def opcode : Instr → Word
  | .modred _ _ _ => 0x01
  | .modmul _ _ _ _ => 0x02
  | .modexp _ _ _ _ => 0x03
  | .modinv _ _ _ => 0x04
  | .fermat2 _ _ => 0x05
  | .mrround _ _ _ => 0x06
  | .primetest _ _ _ => 0x07

/-- The encoding holds the opcode, and the bits 11, 15, 19 and 23 are 0 (R71, R78). -/
def Encodes.Statement (i : Instr) : Prop := encode i &&& 0x008888FF#32 = opcode i

/-- The mask `0x008888FF` keeps the opcode of a packed word and none of its fields. -/
theorem packWord_and_opcode (imm : Nat) (rm rb ra rd : Reg) (op : Nat) (hop : op < 8) :
    packWord imm rm rb ra rd op &&& 0x008888FF#32 = BitVec.ofNat 32 op := by
  have hopb : ∀ k, 8 ≤ k → op.testBit k = false := fun k hk =>
    Nat.testBit_lt_two_pow (lt_of_lt_of_le (lt_of_lt_of_le hop (by decide)) (Nat.pow_le_pow_right (by decide) hk : 2 ^ 8 ≤ 2 ^ k))
  apply packWord_and
  intro k hk
  have hm : ∀ j : Fin 32, (0x008888FF#32).getLsbD j = decide (j.val < 8 ∨ j.val ∈ [11, 15, 19, 23]) := by decide
  have hmk : (0x008888FF#32).getLsbD k = decide (k < 8 ∨ k ∈ [11, 15, 19, 23]) := hm ⟨k, hk⟩
  rw [packWord_getLsbD _ _ _ _ _ _ _ hk, hmk, BitVec.getLsbD_ofNat]
  by_cases h8 : k < 8
  · have hle : ¬ 8 ≤ k ∧ ¬ 12 ≤ k ∧ ¬ 16 ≤ k ∧ ¬ 20 ≤ k ∧ ¬ 24 ≤ k := by omega
    simp [h8, hk, hle]
  · rw [hopb k (by omega), Bool.and_false]
    by_cases hr : k ∈ [11, 15, 19, 23]
    · simp only [List.mem_cons, List.not_mem_nil, or_false] at hr
      rcases hr with rfl | rfl | rfl | rfl <;> simp [reg_testBit]
    · simp [h8, hr]

theorem Encodes.modred (rd ra rm : Reg) : Encodes.Statement (.modred rd ra rm) := packWord_and_opcode _ _ _ _ _ _ (by decide)
theorem Encodes.modmul (rd ra rb rm : Reg) : Encodes.Statement (.modmul rd ra rb rm) :=
  packWord_and_opcode _ _ _ _ _ _ (by decide)
theorem Encodes.modexp (rd ra rb rm : Reg) : Encodes.Statement (.modexp rd ra rb rm) :=
  packWord_and_opcode _ _ _ _ _ _ (by decide)
theorem Encodes.modinv (rd ra rm : Reg) : Encodes.Statement (.modinv rd ra rm) := packWord_and_opcode _ _ _ _ _ _ (by decide)
theorem Encodes.fermat2 (rd ra : Reg) : Encodes.Statement (.fermat2 rd ra) := packWord_and_opcode _ _ _ _ _ _ (by decide)
theorem Encodes.mrround (rd ra rb : Reg) : Encodes.Statement (.mrround rd ra rb) :=
  packWord_and_opcode _ _ _ _ _ _ (by decide)
theorem Encodes.primetest (rd ra : Reg) (rounds : Nat) : Encodes.Statement (.primetest rd ra rounds) :=
  packWord_and_opcode _ _ _ _ _ _ (by decide)

end Sys2Proof.Laws
end

