-- ==== Sys2Proof/Laws/Step.lean ====
section
/-! SUPPORT. Everything one step can do, said once: a next state arises in one of the ways listed here. -/

namespace Sys2Proof.Machine

/-- What a host access can leave before it is answered: nothing changed, or the effect of a write (R55 to R57). -/
inductive HostEffect (s : State) : State → Prop where
  | none : HostEffect s s.atTurn
  | abort (f : InFlight) (w : Word) (hw : s.hostWrites 0x008 w) (hb : w.getLsbD 0 = true) (hf : s.inflight = some f) :
      HostEffect s s.atTurn.abort
  | status (w : Word) (hw : s.hostWrites 0x00C w) : HostEffect s (s.atTurn.statusWrite w)
  | irqen (w : Word) (hw : s.hostWrites 0x010 w) : HostEffect s (s.atTurn.irqenWrite w)
  | discard (off : Offset) (w : Word) (hw : s.hostWrites off w) (hb : s.busy = true)
      (ho : off = 0x014 ∨ 0x1000 ≤ off.toNat) : HostEffect s s.atTurn.overrun
  | refuse (w : Word) (hw : s.hostWrites 0x014 w) (hb : s.busy = false) (e : Illegal) (hd : decode w = .error e) :
      HostEffect s (s.atTurn.refuse w)
  | accept (w : Word) (hw : s.hostWrites 0x014 w) (hb : s.busy = false) (i : Instr) (hd : decode w = .ok i)
      (hl : i.reads.all s.loaded = true) : HostEffect s (s.atTurn.accept w)
  | limb (off : Offset) (w : Word) (i : Reg) (k : Nat) (hw : s.hostWrites off w) (hb : s.busy = false)
      (hk : k < s.build.limbs) (h128 : k < 128) (ho : off.toNat = 0x1000 + 0x200 * i.val + 4 * k) :
      HostEffect s (s.atTurn.writeLimb i k w)

/-- What a step that answers a next state can have been. -/
inductive StepKind (s : State) : State → Prop where
  /-- The engine is idle, held in reset, or waits for a witness. -/
  | engineWaits (he : s.engineNext = true) : StepKind s s.atTurn
  | engineRaises (he : s.engineNext = true) (f : InFlight) (i : Instr) (hf : s.inflight = some f)
      (hd : decode f.word = .ok i) (e : ErrorCode) : StepKind s (s.atTurn.raise e)
  | engineCompletes (he : s.engineNext = true) (f : InFlight) (i : Instr) (hf : s.inflight = some f)
      (hd : decode f.word = .ok i) (hp : i.isPredicate = false) (x : Nat) (hx : exec i s.atTurn = .next (s.atTurn.completeOk i.dest x)) :
      StepKind s (s.atTurn.completeOk i.dest x)
  | engineDecides (he : s.engineNext = true) (f : InFlight) (i : Instr) (hf : s.inflight = some f)
      (hd : decode f.word = .ok i) (hp : i.isPredicate = true) (res : Bool) : StepKind s (s.atTurn.completePred i.dest res)
  | host (u : State) (a : Answer) (hu : HostEffect s u) (hr : s.rstN = true) : StepKind s (u.reply a)
  | wordIgnored (word : Word) (made : Option Nat) (rest : List Input) (hi : s.inputs = .entropy word made :: rest)
      (he : s.entReq = false) : StepKind s s.atTurn
  | wordKept (word : Word) (made : Option Nat) (rest : List Input) (hi : s.inputs = .entropy word made :: rest)
      (he : s.entReq = true) : StepKind s { s.atTurn with entWords := s.entWords ++ [word] }
  | drawTaken (word : Word) (draw : Nat) (rest : List Input) (hi : s.inputs = .entropy word (some draw) :: rest)
      (f : InFlight) (hf : s.inflight = some f) (he : s.entReq = true) (hd : witnessInRange f.a draw = true) :
      StepKind s { s.atTurn with draws := s.draws ++ [draw], entWords := [] }
  | resetReleased (rest : List Input) (hi : s.inputs = .resetPin true :: rest) : StepKind s { s.atTurn with rstN := true }
  | resetAsserted (rest : List Input) (hi : s.inputs = .resetPin false :: rest) : StepKind s s.atTurn.assertReset

/-- The effect of an admitted host write is one of those listed. -/
theorem hostEffect_of_memWrite {s u : State} {off : Offset} {w : Word} (hw : s.hostWrites off w)
    (h : s.atTurn.memWrite off w = .next u) : HostEffect s u := by
  have hmod : off.toNat % 4 = 0 := by
    obtain ⟨_, tr, _, _, ha, _, rfl, _⟩ := hw
    exact Transaction.admitted_aligned ha
  have hspec := targetOf_spec off
  rcases State.memWrite_next _ _ _ _ h with rfl | ⟨ht, hb, rfl⟩ | ⟨ht, rfl⟩ | ⟨ht, rfl⟩ | ⟨ht, hs⟩ | ⟨i, k, ht, rfl⟩
  · exact .none
  · rw [ht] at hspec; subst hspec
    cases hf : s.inflight with
    | none =>
      rw [State.abort_idle _ (show s.atTurn.inflight = .none from hf)]; exact .none
    | some f => exact .abort f w hw hb hf
  · rw [ht] at hspec; subst hspec; exact .status w hw
  · rw [ht] at hspec; subst hspec; exact .irqen w hw
  · rw [ht] at hspec; subst hspec
    rcases s.atTurn.submit_cases w with ⟨hb, e⟩ | ⟨hb, ⟨r, hd⟩, e⟩ | ⟨hb, i, hd, ⟨hl, e⟩ | ⟨_, e⟩⟩ <;> rw [e] at hs <;> cases hs
    · exact .discard _ w hw hb (Or.inl rfl)
    · exact .refuse w hw hb r hd
    · exact .accept w hw hb i hd hl
  · rw [ht] at hspec
    obtain ⟨h1, h2, h3⟩ := hspec
    cases hb : s.busy with
    | true =>
      have : s.atTurn.busy = true := hb
      rw [State.windowWrite, if_pos this]; exact .discard off w hw hb (Or.inr h1)
    | false =>
      have : ¬ s.atTurn.busy = true := by rw [show s.atTurn.busy = s.busy from rfl, hb]; decide
      rw [State.windowWrite, if_neg this]
      split
      · next hk => exact .limb off w i k hw hb hk h2 (by omega)
      · exact .none

/-- Every next state of a step is one of those listed. -/
theorem step_kind {s t : State} (h : step s = .next t) : StepKind s t := by
  rcases step_next s t h with ⟨he, h⟩ | ⟨tr, rest, hi, h⟩ | ⟨word, made, rest, hi, rfl⟩ | ⟨level, rest, hi, rfl⟩
  · rcases s.atTurn.engineTurn_cases with ⟨_, h1⟩ | ⟨_, f, hf, ⟨i, hd, h1⟩ | ⟨_, h1⟩⟩
    · rw [h1] at h; cases h; exact .engineWaits he
    · rw [h1] at h
      rcases exec_cases i s.atTurn with ⟨e, hx⟩ | ⟨hp, x, hx⟩ | ⟨hp, res, hx⟩ | ⟨_, _, _, _, hx⟩
      · rw [hx] at h; cases h; exact .engineRaises he f i hf hd e
      · have hx' := hx; rw [hx] at h; cases h; exact .engineCompletes he f i hf hd hp x hx'
      · rw [hx] at h; cases h; exact .engineDecides he f i hf hd hp res
      · rw [hx] at h; cases h; exact .engineWaits he
    · rw [h1] at h; cases h
  · have hr : s.rstN = true := (State.hostTurn_next _ _ _ h).1
    rcases step_next_host hi h with rfl | ⟨_, rfl⟩ | ⟨hw, u, hu, rfl⟩
    · exact .host _ _ .none hr
    · exact .host _ _ .none hr
    · exact .host _ _ (hostEffect_of_memWrite hw hu) hr
  · rcases s.atTurn.entropyTurn_cases (fun _ _ => made) word with ⟨he, h1⟩ | ⟨he, f, hf, ⟨a, rfl, ha, h1⟩ | ⟨_, h1⟩⟩
    · rw [h1]; exact .wordIgnored word made rest hi he
    · rw [h1]; exact .drawTaken word a rest hi f hf he ha
    · rw [h1]; exact .wordKept word made rest hi he
  · cases level with
    | true => exact .resetReleased rest hi
    | false => exact .resetAsserted rest hi

/-- A run of the interface takes the model's steps. -/
theorem core_run_succ {s u : State} (n : Nat) (h : step s = .next u) :
    Sys2Proof.core.run (n + 1) s = Sys2Proof.core.run n u := by
  have h' : Sys2Proof.core.step s = .next u := h
  simp only [Host.Core.run, h']

end Sys2Proof.Machine
end

