-- ==== Sys2Proof/Laws/Primality.lean ====
section
/-! SUPPORT. When a PRIMETEST still needs a witness, and that the value a command writes is reduced. -/

namespace Sys2Proof.Machine

/-- A PRIMETEST that needs a witness runs rounds and has fewer witnesses than rounds (R119). -/
theorem primetestResult_none {n rounds : Nat} {draws : List Nat} (h : primetestResult n rounds draws = none) :
    RoundsRun n ∧ draws.length < rounds := by
  unfold primetestResult at h
  split at h
  · cases h
  · next hp =>
    refine ⟨(precheck_none_iff n).1 hp, ?_⟩
    simp only [] at h
    rw [testRounds_spec] at h
    split at h
    · split at h
      · cases h
      · omega
    · cases h

/-- `ent_req` is 1 exactly while an in-flight PRIMETEST needs a witness, outside reset (R26). -/
theorem State.entReq_iff (s : State) :
    s.entReq = true ↔ s.rstN = true ∧ ∃ f rd ra rounds, s.inflight = some f
      ∧ decode f.word = .ok (.primetest rd ra rounds) ∧ primetestResult f.a rounds s.draws = none := by
  unfold State.entReq
  split
  · next h => simp [h]
  · next f h =>
    split
    · next rd ra rounds hd =>
      simp only [Bool.and_eq_true, Option.isNone_iff_eq_none]
      refine and_congr_right fun _ => ⟨fun hn => ⟨f, rd, ra, rounds, h, hd, hn⟩, ?_⟩
      rintro ⟨g, _, _, _, hg, hgd, hn⟩
      rw [h] at hg; cases hg
      rw [hd] at hgd; cases hgd
      exact hn
    · next hne =>
      refine ⟨fun hf => (by cases hf), ?_⟩
      rintro ⟨_, g, _, _, _, hg, hgd, _⟩
      rw [h] at hg; cases hg
      exact absurd hgd (hne _ _ _)

/-- The engine waits in a PRIMETEST exactly while a witness is needed (R158, R179). -/
theorem exec_primetest_waits_iff (rd ra : Reg) (rounds : Nat) (s : State) (hb : s.busy = true) :
    exec (.primetest rd ra rounds) s = .next s ↔ primetestResult (s.operandA ra) rounds s.draws = none := by
  simp only [exec, execPrimetest]
  cases h : primetestResult (s.operandA ra) rounds s.draws with
  | none => simp
  | some res =>
    simp only [reduceCtorEq, iff_false]
    intro e
    have := congrArg State.busy (Host.Outcome.next.inj e)
    rw [hb] at this; cases this

/-- The result of a command that is no predicate is reduced: it lies below the modulus operand (R91, R100, R132). -/
theorem exec_completeOk_lt (i : Instr) (s : State) (x : Nat) (hp : i.isPredicate = false)
    (h : exec i s = .next (s.completeOk i.dest x)) : ∃ r, x < s.operandM r := by
  have inj : ∀ (rd : Reg) (y : Nat), s.completeOk rd y = s.completeOk rd x → y = x := by
    intro rd y e
    have := congrArg (fun t => State.reg t rd) e
    simpa [State.completeOk_reg] using this
  have ne : ∀ (e : ErrorCode) (rd : Reg), s.raise e ≠ s.completeOk rd x := by
    intro e rd he
    have : e.code = 0#4 := congrArg State.errCode he
    cases e <;> cases this
  cases i with
  | modred rd ra rm =>
    refine ⟨rm, ?_⟩
    simp only [exec, execModred] at h
    split at h
    · exact absurd (Host.Outcome.next.inj h) (ne _ _)
    · rw [← inj _ _ (Host.Outcome.next.inj h)]; exact Nat.mod_lt _ (Nat.pos_of_ne_zero ‹_›)
  | modmul rd ra rb rm =>
    refine ⟨rm, ?_⟩
    simp only [exec, execModmul] at h
    split at h
    · exact absurd (Host.Outcome.next.inj h) (ne _ _)
    · rw [← inj _ _ (Host.Outcome.next.inj h)]; exact Nat.mod_lt _ (Nat.pos_of_ne_zero ‹_›)
  | modexp rd ra rb rm =>
    refine ⟨rm, ?_⟩
    simp only [exec, execModexp] at h
    split at h
    · exact absurd (Host.Outcome.next.inj h) (ne _ _)
    · rw [← inj _ _ (Host.Outcome.next.inj h), modexp_eq]; exact Nat.mod_lt _ (Nat.pos_of_ne_zero ‹_›)
  | modinv rd ra rm =>
    refine ⟨rm, ?_⟩
    simp only [exec, execModinv] at h
    split at h
    · exact absurd (Host.Outcome.next.inj h) (ne _ _)
    · split at h
      · exact absurd (Host.Outcome.next.inj h) (ne _ _)
      · rw [← inj _ _ (Host.Outcome.next.inj h)]; exact (normalise_spec _ _ (Nat.pos_of_ne_zero ‹_›)).1
  | fermat2 rd ra => cases hp
  | mrround rd ra rb => cases hp
  | primetest rd ra rounds => cases hp

end Sys2Proof.Machine
end

