-- ==== Sys2Proof/Tests/Slice0.lean ====
section
/-! SUPPORT. Tests of the model, their expected results taken from spec/95_test_vectors.md and the rules it cites, and a
witness for the hypotheses of every statement. -/

namespace Sys2Proof.Tests

open Sys2Proof.Machine

/-! ## Well-formedness (R80) -/

theorem test_wf_rounds_255 : Instr.wf (.primetest 7 7 255) = true := by decide
theorem test_wf_refuses_rounds_256 : Instr.wf (.primetest 7 7 256) = false := by decide
theorem test_assembler_refuses_rounds_256 : assemble .primetest [.reg 1, .reg 0, .imm 256] = none := by decide
theorem test_assembler_refuses_v8 : assemble .fermat2 [.reg 8, .reg 0] = none := by decide
theorem test_assembler_refuses_missing_operand : assemble .modexp [.reg 0, .reg 1, .reg 2] = none := by decide
theorem test_assembler_refuses_register_for_rounds : assemble .primetest [.reg 1, .reg 0, .reg 2] = none := by decide
theorem test_mnemonic_in_lower_case : readMnemonic "isprime" = some .isprime := by decide +kernel

/-! ## Decoding: words written out from R71 and the vectors of 95_test_vectors.md -/

theorem test_decode_modred : decode 0x00200101#32 = .ok (.modred 1 0 2) := by decide
theorem test_decode_modmul_v0 : decode 0x00000002#32 = .ok (.modmul 0 0 0 0) := by decide
/-- From R71, the top bit first: imm 0, 0, rm 1, 0, rb 2, 0, ra 5, 0, rd 6, op 2. -/
theorem test_decode_modmul : decode (0#8 ++ 0#1 ++ 1#3 ++ 0#1 ++ 2#3 ++ 0#1 ++ 5#3 ++ 0#1 ++ 6#3 ++ 2#8) = .ok (.modmul 6 5 2 1) := by
  decide
theorem test_decode_modexp : decode 0x00210303#32 = .ok (.modexp 3 0 1 2) := by decide
theorem test_decode_modexp_p6 : decode 0x00034703#32 = .ok (.modexp 7 4 3 0) := by decide
theorem test_decode_modinv : decode 0x00100204#32 = .ok (.modinv 2 0 1) := by decide
theorem test_decode_fermat2 : decode 0x00000405#32 = .ok (.fermat2 4 0) := by decide
theorem test_decode_mrround : decode 0x00010206#32 = .ok (.mrround 2 0 1) := by decide
theorem test_decode_primetest : decode 0x28000307#32 = .ok (.primetest 3 0 40) := by decide
theorem test_decode_primetest_limits : decode 0xFF007707#32 = .ok (.primetest 7 7 255) := by decide
theorem test_decode_illegal :
    [0x00000000#32, 0x00000008#32, 0x000000FF#32, 0x00000803#32, 0x00800003#32, 0x01210303#32, 0x00010201#32,
      0x00100205#32, 0x00100206#32, 0x00010207#32].map (fun w => (decode w).toOption) = List.replicate 10 none := by decide
theorem test_illegal_reasons :
    [0x00000008#32, 0x00800003#32, 0x00010207#32].map illegalReason = [.opcode, .reservedBit, .unusedField] := by decide
theorem test_decode_bytes : decodeBytes [0x03, 0x03, 0x21, 0x00] = .ok (.modexp 3 0 1 2) := by decide
theorem test_decode_bytes_one_word_only : decodeBytes [0x03, 0x03] = .error .notOneWord := by decide
theorem test_decode_table_word : decodeTableWord 32 0x00100304 = some (.modinv 3 0 1) := by decide

/-! ## Small states -/

/-- A default block whose first registers hold `xs` and whose registers all count as loaded, PRED 1 if asked. -/
def blockWith (xs : List Nat) (pred : Bool := false) : State :=
  { State.reset with v := Vector.ofFn (fun i : Fin 8 => xs.getD i.val 0), pred := pred
                     init := Vector.replicate 8 (allLoaded Build.standard) }

/-- The next state of an outcome, if it is one. -/
def nextOf : Result → Option State
  | .next s => some s
  | .fault _ => none
  | .refused _ => none

/-- The fault of an outcome, if it is one. -/
def faultOf : Result → Option Fault
  | .next _ => none
  | .fault f => some f
  | .refused _ => none

/-- An outcome read off by evaluation. -/
theorem next_of {r : Result} {t : State} (h : nextOf r = some t) : r = .next t := by
  cases r with
  | next s => exact congrArg _ (Option.some.inj h)
  | fault f => cases h
  | refused f => cases h

/-- One step of the command word `w` on operands `xs`: the destination's value and STATUS. -/
def runs (xs : List Nat) (w : Nat) (draws : List Nat := []) : Option (Nat × Word) :=
  (nextOf (step { (blockWith xs).withFetchWord 32 w with draws := draws })).map
    (fun t => (t.reg (rdField (BitVec.ofNat 32 w)), t.statusWord))

/-- `blockWith xs` with the command word `w` in flight and the inputs `ins` to come. -/
def busyWith (xs : List Nat) (w : Word) (ins : List Input) : State := { (blockWith xs).accept w with inputs := ins }

/-- `blockWith xs` with the inputs `ins` to come. -/
def idleWith (xs : List Nat) (ins : List Input) : State := { blockWith xs with inputs := ins }

/-- What the step answers on the host port and leaves in STATUS. -/
def answers (s : State) : Option (Option Answer × Word) := (nextOf (step s)).map (fun t => (t.answer, t.statusWord))

/-! ## The commands (95_test_vectors.md, L1 and L2) -/

theorem test_modred : runs [1000, 9, 7] 0x00200101 = some (6, 0x00000002) := by decide
theorem test_modred_modulus_zero : runs [5, 9, 0] 0x00200101 = some (9, 0x00000206) := by decide
theorem test_modmul_full_width : runs [2 ^ 2048 - 1, 2 ^ 2048 - 3] 0x00100202 = some (4, 0x00000002) := by decide +kernel
theorem test_modmul_square : runs [12, 13] 0x00100202 = some (1, 0x00000002) := by decide
theorem test_modexp_source : runs [2, 10, 1000] 0x00210303 = some (24, 0x00000002) := by decide
theorem test_modexp_zero_exponent_modulus_one : runs [5, 0, 1, 9] 0x00210303 = some (0, 0x00000002) := by decide
theorem test_modinv_rsa : runs [17, 3120] 0x00100204 = some (2753, 0x00000002) := by decide
theorem test_modinv_not_invertible : runs [6, 9, 8] 0x00100204 = some (8, 0x00000306) := by decide
theorem test_fermat2_two_gives_zero : runs [2, 0, 0, 0, 7] 0x00000405 = some (0, 0x00000002) := by decide
theorem test_fermat2_pseudoprime : runs [341] 0x00000405 = some (1, 0x0000000A) := by decide
theorem test_mrround_composite : runs [561, 2, 9] 0x00010206 = some (0, 0x00000002) := by decide
theorem test_mrround_bad_operand : runs [7, 7, 9] 0x00010206 = some (9, 0x00000406) := by decide
theorem test_primetest_liar_then_witness : runs [561] 0x28000307 [50, 2] = some (0, 0x00000002) := by decide
theorem test_primetest_waits : runs [97, 0, 0, 5] 0x28000307 [2] = some (5, 0x00000001) := by decide

/-! ## Registers, bus and sequencing (95_test_vectors.md) -/

/-- `blockWith` with a STATUS outcome already recorded. -/
def withStatus (done pred ovr : Bool) (code : BitVec 4) (ins : List Input) : State :=
  { blockWith [] with done := done, pred := pred, ovr := ovr, errCode := code, inputs := ins }

theorem test_read_id : answers { State.reset with inputs := [hostR32 0x000] } = some (some ⟨.ok, some 0x4D414531⟩, 0) := by
  decide
theorem test_read_param : answers { State.reset with inputs := [hostR32 0x004] } = some (some ⟨.ok, some 0x00080040⟩, 0) := by
  decide
theorem test_param_widest_montgomery : paramWord { Build.standard with limbs := 128, expMethod := .montgomery } = 0x00180080 := by decide
theorem test_read_reserved : answers (idleWith [] [hostR32 0xFFC]) = some (some ⟨.ok, some 0⟩, 0) := by decide
theorem test_read_above_operand : answers (idleWith [7] [hostR32 0x1100]) = some (some ⟨.ok, some 0⟩, 0) := by decide
theorem test_read_misaligned : answers (idleWith [] [hostR32 0x002]) = some (some ⟨.err, some 0⟩, 0) := by decide
theorem test_byte_write_refused :
    answers (idleWith [] [.host ⟨.write, 0x014, 1, 0x00000008, 0x1#4⟩]) = some (some ⟨.err, none⟩, 0) := by decide
theorem test_window_write :
    (nextOf (step (idleWith [0xAAAAAAAABBBBBBBB] [hostW32 0x1004 0x12345678]))).map (fun t => t.reg 0)
      = some 0x12345678BBBBBBBB := by decide
theorem test_window_read : answers (idleWith [0, 0x12345678BBBBBBBB] [hostR32 0x1204]) = some (some ⟨.ok, some 0x12345678⟩, 0) := by
  decide
theorem test_illegal_word_refused :
    (nextOf (step (idleWith [] [hostW32 0x014 0x00000008]))).map (fun t => (t.statusWord, t.cmdLast, t.busy))
      = some (0x00000106, 0x00000008, false) := by decide
theorem test_cmd_while_busy :
    (nextOf (step (busyWith [] 0x00200101 [hostW32 0x014 0x00210303]))).map (fun t => (t.statusWord, t.cmdLast))
      = some (0x00000011, 0x00200101) := by decide
theorem test_window_write_while_busy :
    (nextOf (step (busyWith [5] 0x00200101 [hostW32 0x1000 9]))).map (fun t => (t.statusWord, t.reg 0))
      = some (0x00000011, 5) := by decide
theorem test_clear_ovr_only :
    answers (withStatus true false true 0 [hostW32 0x00C 0x10]) = some (some ⟨.ok, none⟩, 0x00000002) := by decide
theorem test_ack_clears_code : answers (withStatus true false false 3 [hostAck]) = some (some ⟨.ok, none⟩, 0) := by decide
theorem test_pred_survives_ack : answers (withStatus true true false 0 [hostAck]) = some (some ⟨.ok, none⟩, 0x00000008) := by
  decide
theorem test_abort_idle : answers (withStatus true false false 0 [hostAbort]) = some (some ⟨.ok, none⟩, 0x00000002) := by decide
theorem test_abort_busy :
    (nextOf (step (busyWith [3, 5, 7] 0x00210303 [hostAbort]))).map (fun t => (t.statusWord, t.loaded 3, t.reg 0))
      = some (0x00000506, false, 3) := by decide +kernel
theorem test_irq_on_done :
    (nextOf (step { busyWith [5, 0, 7] 0x00200101 [] with doneIE := true })).map State.irq = some true := by decide
theorem test_irq_on_ovr : State.irq { blockWith [] with ovr := true, ovrIE := true } = true := by decide
theorem test_uninitialised_source_faults :
    faultOf (step { State.reset with inputs := [hostCmd (.modexp 3 0 1 2)] }) = some .uninitOperand := by decide +kernel
theorem test_access_in_reset_faults :
    faultOf (step { State.reset with rstN := false, inputs := [hostR32 0x000] }) = some .accessInReset := by decide +kernel
theorem test_reset_discards_command :
    (nextOf (step (busyWith [3, 5, 7] 0x00210303 [.resetPin false]))).map (fun t => (t.statusWord, t.cmdLast, t.loaded 0))
      = some (0, 0, false) := by decide +kernel
/-- A witness outside `[2, n-2]` is never used (R118). -/
theorem test_draw_out_of_range_rejected :
    (nextOf (step (busyWith [5] 0x28000307 [.entropy 9 (some 4)]))).map (fun t => (t.draws, t.entReq)) = some ([], true) := by
  decide +kernel
/-- The one witness of one round: the engine asks for no other (R26, R117). -/
theorem test_draw_taken :
    (nextOf (step (busyWith [5] 0x01000307 [.entropy 9 (some 3)]))).map (fun t => (t.draws, t.entReq)) = some ([3], false) := by
  decide +kernel
/-- A draw may consume several words (R118). -/
theorem test_word_kept_for_the_draw :
    (nextOf (step (busyWith [5] 0x01000307 [.entropy 9 none]))).map (fun t => (t.draws, t.entWords, t.entReq))
      = some ([], [9], true) := by decide +kernel
/-- 95_test_vectors.md: the port decodes only `0x0000` to `0x1FFF` above `MAE_BASE`; R51: `off = address - MAE_BASE`. -/
theorem test_platform_address :
    offsetOf { Build.standard with base := 0x40000000 } 0x40001FFC = some 0x1FFC
      ∧ offsetOf { Build.standard with base := 0x40000000 } 0x40002000 = none
      ∧ offsetOf { Build.standard with base := 0x40000000 } 0x3FFFFFFF = none := by decide
theorem test_fetch_word_runs_first :
    (nextOf (step (State.reset.withFetchWord 32 0x00000405))).map State.statusWord = some 0x00000206 := by decide

/-! ## Witnesses for the hypotheses of the statements -/

theorem hostWrites_of {s : State} {off : Offset} {w : Word} (rest : List Input) (hr : s.rstN = true)
    (hi : s.inputs = hostW32 off w :: rest) (ha : off.extractLsb' 0 2 = 0) : s.hostWrites off w :=
  ⟨hr, _, rest, hi, by simp [Transaction.admitted, ha], rfl, rfl, rfl⟩

theorem hostReads_of {s : State} {off : Offset} (rest : List Input) (hr : s.rstN = true)
    (hi : s.inputs = hostR32 off :: rest) (ha : off.extractLsb' 0 2 = 0) : s.hostReads off :=
  ⟨hr, _, rest, hi, by simp [Transaction.admitted, ha], rfl, rfl⟩

/-- The invariant holds in `blockWith xs` when every `x` is in range. -/
theorem inv_blockWith (xs : List Nat) (h : OperandsInRange (blockWith xs)) : Inv (blockWith xs) :=
  ⟨rfl, h, ⟨fun hb => (by cases hb), fun hc => absurd rfl hc, Nat.zero_le _⟩,
    fun i k hk => (by
      simp only [State.initBit, blockWith, Fin.getElem_fin, Vector.getElem_replicate]
      rw [allLoaded_bit _ (by decide)]
      exact decide_eq_false (Nat.not_lt.2 hk)),
    fun f hf => (by cases hf), fun hd => absurd rfl hd, fun hd => absurd rfl hd, fun hr => (by cases hr)⟩

/-! ### Encoding -/

theorem witness_DecodeOfEncodeIsIdentity : Instr.wf (.primetest 7 0 255) = true ∧ Instr.wf (.primetest 0 7 0) = true := by decide
theorem witness_EncodeOfDecodeIsIdentity : decode 0xFF007707#32 = .ok (.primetest 7 7 255) := by decide
theorem witness_IllegalWordsRefused :
    (idleWith [] [hostW32 0x014 0x00800003]).hostWrites 0x014 0x00800003 ∧ (idleWith [] [hostW32 0x014 0x00800003]).busy = false
      ∧ decode 0x00800003#32 = .error .reservedBit :=
  ⟨hostWrites_of _ rfl rfl (by decide), rfl, by decide⟩
theorem witness_DecodeFollowsTable :
    0x00700001#32 &&& 0xFF8F88FF#32 = 0x00000001#32 ∧ 0x00777702#32 &&& 0xFF8888FF#32 = 0x00000002#32
      ∧ 0x00777703#32 &&& 0xFF8888FF#32 = 0x00000003#32 ∧ 0x00707704#32 &&& 0xFF8F88FF#32 = 0x00000004#32
      ∧ 0x00007705#32 &&& 0xFFFF88FF#32 = 0x00000005#32 ∧ 0x00077706#32 &&& 0xFFF888FF#32 = 0x00000006#32
      ∧ 0xFF007707#32 &&& 0x00FF88FF#32 = 0x00000007#32
      ∧ (rows.map (fun row => row.accepts 0)).all (fun b => !b) = true
      ∧ (rows.map (fun row => row.accepts 0x00777702#32)) = [false, true, false, false, false, false, false] := by decide
theorem witness_AssembledCommandsEncode :
    assemble .primetest [.reg 7, .reg 0, .imm 255] = some (.primetest 7 0 255)
      ∧ assemble .rsadec [.reg 2, .reg 2, .reg 1, .reg 0] = some (.modexp 2 2 1 0) := by decide
theorem witness_StepRunsInFlightCommand :
    (busyWith [2, 10, 1000] 0x00210303 [.engine]).rstN = true ∧ (busyWith [2, 10, 1000] 0x00210303 [.engine]).engineNext = true
      ∧ (busyWith [2, 10, 1000] 0x00210303 [.engine]).inflight = some ⟨0x00210303, 2, 10, 1000⟩
      ∧ decode 0x00210303#32 = .ok (.modexp 3 0 1 2) := by decide

/-! ### The commands: both sides of each case, at its boundary -/

theorem witness_ModredReduces :
    (blockWith [5, 0]).operandM 1 = 0 ∧ (blockWith [5, 1]).operandM 1 ≠ 0 ∧ opField 0x01000001#32 = 1
      ∧ 0x01000001#32 &&& 0xFF8F88FF#32 ≠ 0x00000001#32 := by decide
theorem witness_ModmulMultiplies :
    (blockWith [2, 3, 0]).operandM 2 = 0 ∧ (blockWith [2, 3, 1]).operandM 2 ≠ 0 ∧ opField 0x01000002#32 = 2
      ∧ 0x01000002#32 &&& 0xFF8888FF#32 ≠ 0x00000002#32 := by decide
theorem witness_ModexpComputesPower :
    (blockWith [4, 7, 0]).operandM 2 = 0 ∧ (blockWith [5, 0, 1]).operandM 2 ≠ 0 ∧ opField 0x01210303#32 = 3
      ∧ 0x01210303#32 &&& 0xFF8888FF#32 ≠ 0x00000003#32 := by decide
theorem witness_IterativeExponentiationIsPower : modexp 5 0 1 = 0 ∧ modexp 0 0 7 = 1 ∧ (1 : Nat) ≤ 1 := by decide
theorem witness_RecursiveFormAgrees : powRec 3 5 1 = 0 ∧ powRec 5 0 2 = 1 ∧ (1 ≤ 5 ∨ 2 ≤ 1) ∧ (1 ≤ 0 ∨ 2 ≤ 2) := by decide
theorem witness_EuclidReturnsGcdAndBezout : (extEuclid 6 9).1 = 3 ∧ (extEuclid 1 1).1 = 1 ∧ (1 : Nat) ≤ 1 := by decide
theorem witness_ModinvInverts :
    (blockWith [1, 0]).operandM 1 = 0
      ∧ ((blockWith [0, 2]).operandM 1 ≠ 0 ∧ Nat.gcd ((blockWith [0, 2]).operandA 0) ((blockWith [0, 2]).operandM 1) ≠ 1)
      ∧ ((blockWith [1, 1]).operandM 1 ≠ 0 ∧ Nat.gcd ((blockWith [1, 1]).operandA 0) ((blockWith [1, 1]).operandM 1) = 1)
      ∧ opField 0x00010004#32 = 4 ∧ 0x00010004#32 &&& 0xFF8F88FF#32 ≠ 0x00000004#32 := by decide
theorem witness_Fermat2AppliesFormula :
    (blockWith [0]).operandA 0 = 0
      ∧ ((blockWith [3]).operandA 0 ≠ 0 ∧ 2 ^ ((blockWith [3]).operandA 0 - 1) % (blockWith [3]).operandA 0 = 1)
      ∧ ((blockWith [1]).operandA 0 ≠ 0 ∧ 2 ^ ((blockWith [1]).operandA 0 - 1) % (blockWith [1]).operandA 0 ≠ 1)
      ∧ opField 0x00100205#32 = 5 ∧ 0x00100205#32 &&& 0xFFFF88FF#32 ≠ 0x00000005#32 := by decide
theorem witness_Fermat2PassesPrimes :
    (blockWith [3]).operandA 0 ≠ 0 ∧ Nat.Prime ((blockWith [3]).operandA 0) ∧ (blockWith [2]).operandA 0 % 2 = 0 := by
  refine ⟨by decide, ?_, by decide⟩
  show Nat.Prime 3
  norm_num
theorem witness_DecomposeIsUnique : decompose 3 = (1, 1) ∧ decompose 97 = (5, 3) ∧ 3 % 2 = 1 ∧ 4 = 2 ^ 2 * 1 := by decide

theorem witness_MrroundRunsOneRound :
    ¬ RoundsRun 4 ∧ ¬ RoundsRun 1 ∧ RoundsRun ((blockWith [5, 4]).operandA 0)
      ∧ ¬ (2 ≤ (blockWith [5, 4]).operandB 1 ∧ (blockWith [5, 4]).operandB 1 ≤ (blockWith [5, 4]).operandA 0 - 2)
      ∧ (2 ≤ (blockWith [5, 3]).operandB 1 ∧ (blockWith [5, 3]).operandB 1 ≤ (blockWith [5, 3]).operandA 0 - 2)
      ∧ StrongPass 5 3 ∧ ¬ StrongPass 9 2
      ∧ opField 0x00100206#32 = 6 ∧ 0x00100206#32 &&& 0xFFF888FF#32 ≠ 0x00000006#32 := by
  refine ⟨fun h => absurd h.1 (by decide), fun h => absurd h.2 (by decide), ⟨by decide, by decide⟩, by decide, by decide, ?_, ?_,
    by decide, by decide⟩
  · exact (mrRound_decompose 5 3 ⟨by decide, by decide⟩).1 (by decide)
  · exact fun h => absurd ((mrRound_decompose 9 2 ⟨by decide, by decide⟩).2 h) (by decide)

/-- `blockWith [n]` with a PRIMETEST of `n` in flight and the witnesses `draws` taken. -/
def testing (n rounds : Nat) (draws : List Nat) (ins : List Input) : State :=
  { busyWith [n] (encode (.primetest 3 0 rounds)) ins with draws := draws }

theorem witness_PrimetestRunsRounds :
    ¬ RoundsRun ((testing 3 40 [] []).operandA 0)
      ∧ (RoundsRun ((testing 9 40 [7] []).operandA 0) ∧ ∃ a ∈ (testing 9 40 [7] []).draws.take 40, ¬ StrongPass 9 a)
      ∧ ((∀ a ∈ (testing 5 2 [2, 3] []).draws.take 2, StrongPass 5 a) ∧ 2 ≤ (testing 5 2 [2, 3] []).draws.length)
      ∧ ((∀ a ∈ (testing 5 2 [3] []).draws.take 2, StrongPass 5 a) ∧ (testing 5 2 [3] []).draws.length < 2)
      ∧ opField 0x00010207#32 = 7 ∧ 0x00010207#32 &&& 0x00FF88FF#32 ≠ 0x00000007#32 := by
  have h5 : ∀ a, a = 2 ∨ a = 3 → StrongPass 5 a := fun a ha => by
    rcases ha with rfl | rfl <;> exact (mrRound_decompose 5 _ ⟨by decide, by decide⟩).1 (by decide)
  refine ⟨fun h => absurd h.2 (by decide),
    ⟨⟨by decide, by decide⟩, 7, by decide,
      fun h => absurd ((mrRound_decompose 9 7 ⟨by decide, by decide⟩).2 h) (by decide)⟩,
    ⟨fun a ha => ?_, by decide⟩, ⟨fun a ha => ?_, by decide⟩, by decide, by decide⟩
  · have ha : a ∈ [2, 3] := ha
    exact h5 a (by simpa using ha)
  · have ha : a ∈ [3] := ha
    exact h5 a (Or.inr (by simpa using ha))

theorem witness_ZeroRoundsPass :
    RoundsRun ((testing 5 0 [] []).operandA 0) ∧ (testing 5 0 [] []).inflight = some ⟨0x00000307, 5, 5, 5⟩
      ∧ decode 0x00000307#32 = .ok (.primetest 3 0 0) := ⟨⟨by decide, by decide⟩, by decide, by decide⟩
theorem witness_PrimePassesEveryWitness :
    Nat.Prime ((testing 5 2 [2, 3] []).operandA 0) ∧ 5 ≤ (testing 5 2 [2, 3] []).operandA 0
      ∧ ∀ a ∈ (testing 5 2 [2, 3] []).draws, 2 ≤ a ∧ a ≤ (testing 5 2 [2, 3] []).operandA 0 - 2 := by
  refine ⟨?_, by decide, by decide⟩
  show Nat.Prime 5
  norm_num
theorem witness_RoundResultZeroMeansComposite :
    ∃ t, RoundsRun ((blockWith [9, 2]).operandA 0) ∧ exec (.mrround 2 0 1) (blockWith [9, 2]) = .next t ∧ t.errCode = 0
      ∧ t.pred = false := 
  ⟨(blockWith [9, 2]).completePred 2 false, ⟨by decide, by decide⟩, next_of (by decide +kernel), rfl, rfl⟩
theorem witness_NineFailsEveryWitness :
    (testing 9 1 [7] []).operandA 0 = 9 ∧ 1 ≤ 1 ∧ (testing 9 1 [7] []).draws ≠ []
      ∧ ∀ a ∈ (testing 9 1 [7] []).draws, 2 ≤ a ∧ a ≤ 7 := by decide
theorem witness_CommandFrame :
    exec (.modred 1 0 2) (blockWith [10, 0, 3]) = .next ((blockWith [10, 0, 3]).completeOk 1 1) ∧ (2 : Reg) ≠ 1
      ∧ Instr.isPredicate (.modred 1 0 2) = false := ⟨next_of (by decide +kernel), by decide, by decide⟩
theorem witness_CommandEndsInOneTurn : ∀ rd ra rounds, Instr.mrround 1 2 3 ≠ .primetest rd ra rounds := by
  intro rd ra rounds h; cases h
theorem witness_ResultDependsOnOperandsOnly :
    ∃ t t', (busyWith [2, 10, 1000] 0x00210303 []).inflight = some ⟨0x00210303, 2, 10, 1000⟩
      ∧ (busyWith [2, 10, 1000, 9] 0x00210303 []).inflight = some ⟨0x00210303, 2, 10, 1000⟩
      ∧ exec (.modexp 3 0 1 2) (busyWith [2, 10, 1000] 0x00210303 []) = .next t
      ∧ exec (.modexp 3 0 1 2) (busyWith [2, 10, 1000, 9] 0x00210303 []) = .next t' :=
  ⟨(busyWith [2, 10, 1000] 0x00210303 []).completeOk 3 24, (busyWith [2, 10, 1000, 9] 0x00210303 []).completeOk 3 24,
    by decide, by decide, next_of (by decide +kernel), next_of (by decide +kernel)⟩
theorem witness_MultiplicationMethodInvisible :
    exec (.modmul 2 0 1 2) (blockWith [3, 4, 5]) = .next ((blockWith [3, 4, 5]).completeOk 2 2) :=
  next_of (by decide +kernel)

/-! ### The host port, each clause at the boundaries of its range -/

theorem reads_of (xs : List Nat) (off : Offset) (ha : off.extractLsb' 0 2 = 0) : (idleWith xs [hostR32 off]).hostReads off :=
  hostReads_of [] rfl rfl ha

theorem writes_of (xs : List Nat) (off : Offset) (w : Word) (ha : off.extractLsb' 0 2 = 0) :
    (idleWith xs [hostW32 off w]).hostWrites off w := hostWrites_of [] rfl rfl ha

theorem busy_writes_of (xs : List Nat) (off : Offset) (w : Word) (ha : off.extractLsb' 0 2 = 0) :
    (busyWith xs 0x00210303 [hostW32 off w]).hostWrites off w := hostWrites_of [] rfl rfl ha

theorem witness_ReadAnswersRegisterMap :
    (idleWith [7] [hostR32 0x000]).hostReads 0x000 ∧ (idleWith [7] [hostR32 0x004]).hostReads 0x004
      ∧ (idleWith [7] [hostR32 0x008]).hostReads 0x008 ∧ (idleWith [7] [hostR32 0x00C]).hostReads 0x00C
      ∧ (idleWith [7] [hostR32 0x010]).hostReads 0x010 ∧ (idleWith [7] [hostR32 0x014]).hostReads 0x014
      ∧ (idleWith [7] [hostR32 0x018]).hostReads 0x018 ∧ (idleWith [7] [hostR32 0xFFC]).hostReads 0xFFC
      ∧ (idleWith [7] [hostR32 0x1000]).hostReads 0x1000 ∧ (idleWith [7] [hostR32 0x1FFC]).hostReads 0x1FFC
      ∧ (idleWith [7] []).busy = false ∧ (0x1000#13).toNat = 0x1000 + 0x200 * (0 : Reg).val + 4 * 0
      ∧ (0x1FFC#13).toNat = 0x1000 + 0x200 * (7 : Reg).val + 4 * 127 ∧ (idleWith [7] []).initBit 0 0 = true
      ∧ (idleWith [7] []).initBit 0 63 = true ∧ (idleWith [7] []).build.limbs ≤ 64 :=
  ⟨reads_of _ _ (by decide), reads_of _ _ (by decide), reads_of _ _ (by decide), reads_of _ _ (by decide),
    reads_of _ _ (by decide), reads_of _ _ (by decide), reads_of _ _ (by decide), reads_of _ _ (by decide),
    reads_of _ _ (by decide), reads_of _ _ (by decide), rfl, by decide, by decide, by decide +kernel, by decide +kernel,
    by decide⟩
theorem witness_ParamFields :
    Build.legal ⟨64, .binary, 0, .apb, false⟩ = true ∧ Build.legal ⟨128, .montgomery, 0xFFFFE000, .axi4Lite, true⟩ = true
      ∧ (idleWith [] [hostR32 0x004]).hostReads 0x004
      ∧ (idleWith [] [hostW32 0x004 1]).hostWrites 0x004 1
      ∧ step (idleWith [] [.engine]) = .next (idleWith [] []) :=
  ⟨by decide, by decide, reads_of _ _ (by decide), writes_of _ _ _ (by decide), rfl⟩
theorem witness_OtherAccessesRefused :
    (idleWith [] [.host ⟨.read, 0x000, 2, 0, 0xF⟩]).rstN = true
      ∧ (idleWith [] [.host ⟨.read, 0x000, 2, 0, 0xF⟩]).inputs = [.host ⟨.read, 0x000, 2, 0, 0xF⟩] ∧ (2 : Nat) ≠ 4
      ∧ (0x1FFF#13).toNat % 4 ≠ 0 ∧ (0x001#13).toNat % 4 ≠ 0 ∧ (0xE#4 : BitVec 4) ≠ 0xF#4 ∧ Direction.write = .write := by
  decide
theorem witness_IdAndReservedOffsets :
    (idleWith [] [hostW32 0x000 1]).hostWrites 0x000 1 ∧ (idleWith [] [hostW32 0x018 1]).hostWrites 0x018 1
      ∧ (busyWith [] 0x00210303 [hostW32 0xFFC 1]).hostWrites 0xFFC 1 ∧ (idleWith [] [hostR32 0x018]).hostReads 0x018
      ∧ (idleWith [] [hostR32 0xFFC]).hostReads 0xFFC ∧ (idleWith [] [hostR32 0x000]).hostReads 0x000
      ∧ 0x018 ≤ (0x018#13).toNat ∧ (0xFFC#13).toNat < 0x1000 :=
  ⟨writes_of _ _ _ (by decide), writes_of _ _ _ (by decide), busy_writes_of _ _ _ (by decide), reads_of _ _ (by decide),
    reads_of _ _ (by decide), reads_of _ _ (by decide), by decide, by decide⟩
theorem witness_StatusWriteClears :
    (idleWith [] [hostW32 0x00C 0x12]).hostWrites 0x00C 0x12
      ∧ (busyWith [] 0x00210303 [hostW32 0x00C 0x02]).hostWrites 0x00C 0x02
      ∧ FlagsConsistent (busyWith [] 0x00210303 [hostW32 0x00C 0x02]) ∧ (busyWith [] 0x00210303 [hostW32 0x00C 0x02]).busy = true
      ∧ (idleWith [] [hostR32 0x00C]).hostReads 0x00C :=
  ⟨writes_of _ _ _ (by decide), busy_writes_of _ _ _ (by decide),
    ⟨fun _ => ⟨rfl, rfl⟩, fun h => absurd rfl h, Nat.zero_le _⟩, rfl, reads_of _ _ (by decide)⟩
theorem witness_IrqenWriteDrivesIrq :
    (idleWith [] [hostW32 0x010 3]).hostWrites 0x010 3 ∧ (busyWith [] 0x00210303 [hostW32 0x010 0]).hostWrites 0x010 0 :=
  ⟨writes_of _ _ _ (by decide), busy_writes_of _ _ _ (by decide)⟩

/-- The block in reset, the pin still low. -/
def inReset (ins : List Input) : State := { (busyWith [3, 5, 7] 0x00210303 []).assertReset with inputs := ins }

theorem inReset_held (ins : List Input) : HeldInReset (inReset ins) := by
  have hs : (inReset []).statusWord = 0 ∧ (inReset []).irqenWord = 0 := by decide +kernel
  exact fun _ => ⟨rfl, hs.1, hs.2, rfl, rfl, rfl, fun i k => by simp [State.initBit, inReset]⟩

theorem witness_IrqFollowsStatusAndIrqen : HeldInReset (inReset []) ∧ (inReset []).rstN = false := ⟨inReset_held [], rfl⟩
theorem witness_CmdWriteSubmits :
    ((busyWith [] 0x00210303 [hostW32 0x014 0x00000405]).hostWrites 0x014 0x00000405
        ∧ (busyWith [] 0x00210303 [hostW32 0x014 0x00000405]).busy = true)
      ∧ ((idleWith [] [hostW32 0x014 0]).hostWrites 0x014 0 ∧ (idleWith [] [hostW32 0x014 0]).busy = false
        ∧ decode 0#32 = .error .opcode)
      ∧ (State.hostWrites { State.reset with inputs := [hostW32 0x014 0x00000405] } 0x014 0x00000405
        ∧ decode 0x00000405#32 = .ok (.fermat2 4 0) ∧ (0 : Reg) ∈ Instr.reads (.fermat2 4 0) ∧ State.reset.initBit 0 63 = false
        ∧ 63 < State.reset.build.limbs)
      ∧ ((idleWith [] [hostW32 0x014 0x00000405]).hostWrites 0x014 0x00000405
        ∧ ∀ k, k < 64 → (idleWith [] []).initBit 0 k = true) :=
  ⟨⟨busy_writes_of _ _ _ (by decide), rfl⟩, ⟨writes_of _ _ _ (by decide), rfl, by decide⟩,
    ⟨hostWrites_of [] rfl rfl (by decide), by decide, by decide, by decide +kernel, by decide⟩,
    ⟨writes_of _ _ _ (by decide), by decide +kernel⟩⟩
theorem witness_WindowWriteStoresLimb :
    ((busyWith [] 0x00210303 [hostW32 0x1000 9]).hostWrites 0x1000 9 ∧ (busyWith [] 0x00210303 [hostW32 0x1000 9]).busy = true)
      ∧ ((idleWith [] [hostW32 0x10FC 9]).hostWrites 0x10FC 9 ∧ (0x10FC#13).toNat = 0x1000 + 0x200 * (0 : Reg).val + 4 * 63
        ∧ 63 < (idleWith [] []).build.limbs)
      ∧ ((idleWith [] [hostW32 0x1100 9]).hostWrites 0x1100 9 ∧ (0x1100#13).toNat = 0x1000 + 0x200 * (0 : Reg).val + 4 * 64
        ∧ (idleWith [] []).build.limbs ≤ 64)
      ∧ ((idleWith [] [hostW32 0x1FFC 9]).hostWrites 0x1FFC 9 ∧ (0x1FFC#13).toNat = 0x1000 + 0x200 * (7 : Reg).val + 4 * 127)
      ∧ (idleWith [] []).busy = false ∧ (idleWith [2 ^ 2048 - 1] []).reg 0 < 2 ^ Build.standard.width :=
  ⟨⟨busy_writes_of _ _ _ (by decide), rfl⟩, ⟨writes_of _ _ _ (by decide), by decide, by decide⟩,
    ⟨writes_of _ _ _ (by decide), by decide, by decide⟩, ⟨writes_of _ _ _ (by decide), by decide⟩, rfl, by decide +kernel⟩
theorem witness_OperandIsSumOfLimbs :
    (blockWith [2 ^ 2048 - 1]).reg 0 < 2 ^ (blockWith [2 ^ 2048 - 1]).build.width := by decide +kernel
theorem witness_RepeatedWritesIdempotent : (blockWith []).busy = false := by decide
theorem witness_LdvLoadsInteger :
    State.rstN { State.reset with inputs := hostLdv Build.standard 0 (2 ^ 2048 - 1) ++ [.engine] } = true
      ∧ State.reset.busy = false ∧ State.reset.build.legal = true ∧ State.reset.reg 0 < 2 ^ State.reset.build.width
      ∧ 2 ^ 2048 - 1 < 2 ^ State.reset.build.width
      ∧ State.inputs { State.reset with inputs := hostLdv Build.standard 0 (2 ^ 2048 - 1) ++ [.engine] }
          = hostLdv State.reset.build 0 (2 ^ 2048 - 1) ++ [.engine] :=
  ⟨rfl, rfl, rfl, by decide +kernel, by decide +kernel, rfl⟩

/-! ### Abort, reset, entropy -/

theorem witness_AbortEndsCommand :
    ((idleWith [] [hostAbort]).hostWrites 0x008 1 ∧ (idleWith [] [hostAbort]).inflight = none)
      ∧ ((busyWith [3, 5, 7] 0x00210303 [hostW32 0x008 0]).hostWrites 0x008 0 ∧ (0#32).getLsbD 0 = false)
      ∧ ((busyWith [3, 5, 7] 0x00210303 [hostAbort]).hostWrites 0x008 1 ∧ (1#32).getLsbD 0 = true
        ∧ (busyWith [3, 5, 7] 0x00210303 [hostAbort]).inflight = some ⟨0x00210303, 3, 5, 7⟩) :=
  ⟨⟨hostWrites_of [] rfl rfl (by decide), rfl⟩, ⟨busy_writes_of _ _ _ (by decide), by decide⟩,
    ⟨hostWrites_of [] rfl rfl (by decide), by decide, by decide⟩⟩
theorem witness_ResetPinAssertion :
    (busyWith [3, 5, 7] 0x00210303 [.resetPin false]).resetNext
      ∧ ((inReset [hostR32 0x000]).rstN = false ∧ (inReset [hostR32 0x000]).inputs = [hostR32 0x000])
      ∧ (inReset [.resetPin true]).inputs = [.resetPin true] := ⟨⟨[], rfl⟩, ⟨rfl, rfl⟩, rfl⟩
theorem witness_WitnessTakenOnRequest :
    ((testing 5 1 [] [.entropy 9 (some 3)]).inputs = [.entropy 9 (some 3)]
        ∧ (testing 5 1 [] [.entropy 9 (some 3)]).entReq = true
        ∧ (testing 5 1 [] [.entropy 9 (some 3)]).inflight = some ⟨0x01000307, 5, 5, 5⟩ ∧ 2 ≤ 3 ∧ 3 ≤ 5 - 2)
      ∧ ((testing 5 1 [] [.entropy 9 (some 4)]).entReq = true ∧ ¬ (2 ≤ 4 ∧ 4 ≤ 5 - 2))
      ∧ (testing 5 1 [2] [.entropy 9 none]).entReq = false
      ∧ ((testing 5 1 [] []).rstN = true ∧ decode 0x01000307#32 = .ok (.primetest 3 0 1)
        ∧ exec (.primetest 3 0 1) (testing 5 1 [] []) = .next (testing 5 1 [] [])) :=
  ⟨⟨rfl, by decide +kernel, by decide +kernel, by decide, by decide⟩, ⟨by decide +kernel, by decide⟩, by decide +kernel, rfl,
    by decide, next_of (by decide +kernel)⟩
theorem witness_StarvedPrimetestStaysBusy :
    ((testing 97 40 [2] []).entReq = true ∧ (testing 97 40 [2] []).inputs = [])
      ∧ ((testing 97 40 [2] [hostAbort]).entReq = true ∧ (testing 97 40 [2] [hostAbort]).hostWrites 0x008 1
        ∧ (1#32).getLsbD 0 = true) :=
  ⟨by decide +kernel, by decide +kernel, hostWrites_of [] rfl rfl (by decide), by decide⟩

/-! ### The whole machine -/

/-- A completion step of a predicate command: FERMAT2 of 97. -/
theorem test_completion_step :
    step (busyWith [97] 0x00000405 []) = .next ((busyWith [97] 0x00000405 []).completePred 4 true) :=
  next_of (by decide +kernel)

theorem witness_PredWrittenByPredicatesOnly :
    Instr.isPredicate (.fermat2 4 0) = true ∧ (busyWith [97] 0x00000405 []).busy = true
      ∧ exec (.fermat2 4 0) (busyWith [97] 0x00000405 []) = .next ((busyWith [97] 0x00000405 []).completePred 4 true)
      ∧ ((busyWith [97] 0x00000405 []).completePred 4 true).busy = false
      ∧ ((busyWith [97] 0x00000405 []).completePred 4 true).errCode = 0 :=
  ⟨rfl, rfl, next_of (by decide +kernel), rfl, rfl⟩
theorem witness_OvrSetByDiscardedWritesOnly :
    ((busyWith [] 0x00210303 [hostW32 0x014 0]).hostWrites 0x014 0 ∧ (busyWith [] 0x00210303 [hostW32 0x014 0]).busy = true)
      ∧ ((busyWith [] 0x00210303 [hostW32 0x1000 0]).hostWrites 0x1000 0 ∧ 0x1000 ≤ (0x1000#13).toNat)
      ∧ (∃ t, step (busyWith [] 0x00210303 [hostW32 0x1000 0]) = .next t ∧ (busyWith [] 0x00210303 []).ovr = false ∧ t.ovr = true)
      ∧ ∃ t, step (withStatus false false true 0 [hostW32 0x00C 0x10]) = .next t
        ∧ (withStatus false false true 0 []).ovr = true ∧ t.ovr = false :=
  ⟨⟨busy_writes_of _ _ _ (by decide), rfl⟩, ⟨busy_writes_of _ _ _ (by decide), by decide⟩,
    ⟨(busyWith [] 0x00210303 []).overrun.reply ⟨.ok, none⟩, next_of (by decide +kernel), rfl, rfl⟩,
    ⟨((withStatus false false true 0 []).statusWrite 0x10).reply ⟨.ok, none⟩, next_of (by decide +kernel), rfl, rfl⟩⟩
theorem witness_CmdLastIsLastIdleWord :
    (idleWith [] [hostR32 0x014]).hostReads 0x014
      ∧ ∃ t, (idleWith [97] [hostW32 0x014 0x00000405]).hostWrites 0x014 0x00000405
        ∧ step (idleWith [97] [hostW32 0x014 0x00000405]) = .next t ∧ t.cmdLast ≠ (idleWith [97] []).cmdLast :=
  ⟨reads_of _ _ (by decide), ((idleWith [97] []).accept 0x00000405).reply ⟨.ok, none⟩, writes_of _ _ _ (by decide),
    next_of (by decide +kernel), by decide⟩
theorem witness_WhoWritesOperandRegisters :
    ∃ t, step (busyWith [97] 0x00000405 []) = .next t ∧ t.reg 4 ≠ (busyWith [97] 0x00000405 []).reg 4 :=
  ⟨_, test_completion_step, by decide +kernel⟩
theorem witness_BusyRisesByAcceptance :
    (∃ t, step (idleWith [97] [hostW32 0x014 0x00000405]) = .next t ∧ (idleWith [97] []).busy = false ∧ t.busy = true)
      ∧ ∃ t, step (busyWith [97] 0x00000405 []) = .next t ∧ (busyWith [97] 0x00000405 []).busy = true ∧ t.busy = false :=
  ⟨⟨((idleWith [97] []).accept 0x00000405).reply ⟨.ok, none⟩, next_of (by decide +kernel), rfl, rfl⟩, _, test_completion_step, rfl, rfl⟩
theorem witness_FlagInvariantKept :
    FlagsConsistent (busyWith [97] 0x00000405 []) ∧ ∃ t, step (busyWith [97] 0x00000405 []) = .next t :=
  ⟨⟨fun _ => ⟨rfl, rfl⟩, fun h => absurd rfl h, Nat.zero_le _⟩, _, test_completion_step⟩

/-- FERMAT2 of 97 in flight: its word, its source and its snapshots. -/
theorem inFlightFaithful_busyWith (ins : List Input) : InFlightFaithful (busyWith [97] 0x00000405 ins) := by
  intro f hf
  have hf : some (⟨0x00000405, 97, 97, 97⟩ : InFlight) = some f := hf
  cases hf
  exact ⟨⟨.fermat2 4 0, by decide, by show (Instr.reads (.fermat2 4 0)).all (blockWith [97]).loaded = true; decide +kernel⟩,
    rfl, rfl, rfl, rfl⟩

theorem witness_SnapshotsEqualRegisters :
    InFlightFaithful (busyWith [97] 0x00000405 []) ∧ ∃ t, step (busyWith [97] 0x00000405 []) = .next t :=
  ⟨inFlightFaithful_busyWith [], _, test_completion_step⟩
theorem witness_EveryStepKeepsInvariant :
    Inv (busyWith [97] 0x00000405 []) ∧ ∃ t, step (busyWith [97] 0x00000405 []) = .next t := by
  have h := inv_blockWith [97] (by unfold OperandsInRange; decide +kernel)
  have ho : OperandsInRange (busyWith [97] 0x00000405 []) := by unfold OperandsInRange; decide +kernel
  exact ⟨⟨h.build, ho, ⟨fun _ => ⟨rfl, rfl⟩, fun h => absurd rfl h, Nat.zero_le _⟩, h.marks,
    inFlightFaithful_busyWith [], fun hd => absurd rfl hd, fun hd => absurd rfl hd, fun hr => (by cases hr)⟩, _, test_completion_step⟩
theorem witness_ResetStateMeetsInvariant :
    Build.legal ⟨64, .binary, 0, .apb, false⟩ = true ∧ Build.legal ⟨128, .montgomery, 0xFFFFE000, .axi4Lite, true⟩ = true := by
  decide
theorem witness_FaultsOnlyWithoutMeaning : Inv (blockWith [97]) ∧ ∃ t, step (blockWith [97]) = .next t :=
  ⟨inv_blockWith [97] (by unfold OperandsInRange; decide +kernel), _, (rfl : step (blockWith [97]) = .next (blockWith [97]))⟩
theorem witness_SubmittedCommandCompletes :
    (idleWith [97] [hostW32 0x014 0x00000405, .engine]).hostWrites 0x014 0x00000405
      ∧ (idleWith [97] [hostW32 0x014 0x00000405, .engine]).inputs.tail.head? = some .engine
      ∧ (idleWith [97] [hostW32 0x014 0x00000405, .engine]).busy = false ∧ decode 0x00000405#32 = .ok (.fermat2 4 0)
      ∧ (∀ rd ra rounds, Instr.fermat2 4 0 ≠ .primetest rd ra rounds)
      ∧ (Instr.reads (.fermat2 4 0)).all (idleWith [97] [hostW32 0x014 0x00000405, .engine]).loaded = true :=
  ⟨hostWrites_of [.engine] rfl rfl (by decide), rfl, rfl, by decide, fun _ _ _ h => (by cases h), by decide +kernel⟩


/-! ### The parameters of the platform -/

theorem witness_PlatformAddressReachesOffset :
    Build.legal { Build.standard with base := 0x2000 } = true
      ∧ offsetOf { Build.standard with base := 0x2000 } 0x2000 = some 0
      ∧ offsetOf { Build.standard with base := 0x2000 } 0x3FFF = some 0x1FFF := by decide

/-- A method that takes two words for a witness of 5: 2 when the last is even, else 3. -/
def twoWords : WitnessDraw := fun n words =>
  if n = 5 ∧ words.length = 2 then some (if (words.getLastD 0).getLsbD 0 then 3 else 2) else none

theorem twoWords_legal : twoWords.legal := by
  intro n words a h
  unfold twoWords at h
  split at h
  · next hn => rw [hn.1]; split at h <;> cases h <;> decide
  · cases h

theorem witness_EntropyWordsMakeWitnesses :
    (twoWords.legal ∧ (testing 5 1 [] []).entReq = true ∧ (testing 5 1 [] []).inflight = some ⟨0x01000307, 5, 5, 5⟩)
      ∧ State.entropyInput twoWords (testing 5 1 [] []) 9 = .entropy 9 none
      ∧ State.entropyInput twoWords { testing 5 1 [] [] with entWords := [9] } 7 = .entropy 7 (some 3) :=
  ⟨⟨twoWords_legal, by decide +kernel, by decide +kernel⟩, by decide +kernel, by decide +kernel⟩

theorem witness_PlatformParametersInvisible :
    (∃ t, step (busyWith [97] 0x00000405 []) = .next t)
      ∧ step { inReset [] with inputs := [hostR32 0x000] } = .fault .accessInReset :=
  ⟨⟨_, test_completion_step⟩, rfl⟩

end Sys2Proof.Tests
end

section
/-! PROOFS. The statements about the scope of the model (00_scope.md): which steps answer a next state, what the entropy
words become, and that no step reads the platform's parameters. -/

/-! ## Whose turn a step is -/

namespace Sys2Proof.Machine

/-- Every step is the turn of one agent, whatever its outcome (R62, R158); `step_next` says so of next states only. -/
theorem step_turn (s : State) :
    (s.engineNext = true ∧ step s = s.atTurn.engineTurn)
      ∨ (∃ t rest, s.inputs = .host t :: rest ∧ step s = s.atTurn.hostTurn t)
      ∨ (∃ word made rest, s.inputs = .entropy word made :: rest
          ∧ step s = .next (s.atTurn.entropyTurn (fun _ _ => made) word))
      ∨ (∃ level rest, s.inputs = .resetPin level :: rest ∧ step s = .next (s.atTurn.drivePin level)) := by
  cases hi : s.inputs with
  | nil =>
    have hs : s.atTurn = s := by rw [State.atTurn, hi, List.tail_nil, ← hi]; rfl
    exact Or.inl ⟨by simp [State.engineNext, hi], by simp only [step, hi, hs]⟩
  | cons x rest =>
    have hs := State.atTurn_host hi
    cases x with
    | host t => exact Or.inr (Or.inl ⟨t, rest, rfl, by simp only [step, hi, hs]⟩)
    | engine => exact Or.inl ⟨by simp [State.engineNext, hi], by simp only [step, hi, hs]⟩
    | entropy word made => exact Or.inr (Or.inr (Or.inl ⟨word, made, rest, rfl, by simp only [step, hi, hs]⟩))
    | resetPin level => exact Or.inr (Or.inr (Or.inr ⟨level, rest, rfl, by simp only [step, hi, hs]⟩))

/-! ## Which turns answer a next state -/

theorem exec_next (i : Instr) (s : State) : ∃ t, exec i s = .next t := by
  rcases exec_cases i s with ⟨e, h⟩ | ⟨_, x, h⟩ | ⟨_, res, h⟩ | ⟨_, _, _, _, h⟩ <;> exact ⟨_, h⟩

/-- With a command faithfully in flight, or none, the engine's turn answers a next state: its one fault is the illegal
word in flight (R158; log 11). -/
theorem State.engineTurn_next_of_faithful {s : State} (hs : InFlightFaithful s) : ∃ t, s.engineTurn = .next t := by
  rcases s.engineTurn_cases with ⟨_, h⟩ | ⟨_, f, hf, ⟨i, _, h⟩ | ⟨⟨e, he⟩, _⟩⟩
  · exact ⟨_, h⟩
  · rw [h]; exact exec_next i s
  · obtain ⟨⟨i, hi, _⟩, _⟩ := hs f hf
    rw [hi] at he; cases he

/-- A CMD write stops only for a legal command with a source that is not loaded (R23, R141). -/
theorem State.submit_outcome (s : State) (w : Word) :
    (∃ u, s.submit w = .next u)
      ∨ (s.submit w = .fault .uninitOperand ∧ s.busy = false ∧ ∃ i, decode w = .ok i
          ∧ ∃ r ∈ i.reads, s.loaded r = false) := by
  rcases s.submit_cases w with ⟨_, h⟩ | ⟨_, _, h⟩ | ⟨hb, i, hd, ⟨_, h⟩ | ⟨hl, h⟩⟩
  · exact Or.inl ⟨_, h⟩
  · exact Or.inl ⟨_, h⟩
  · exact Or.inl ⟨_, h⟩
  · exact Or.inr ⟨h, hb, i, hd, by simpa using hl⟩

/-- Of the writes only that of CMD can stop (R56). -/
theorem State.memWrite_outcome (s : State) (off : Offset) (w : Word) :
    (∃ u, s.memWrite off w = .next u) ∨ (off = 0x014 ∧ s.memWrite off w = s.submit w) := by
  have hspec := targetOf_spec off
  cases ht : targetOf off with
  | cmd => rw [ht] at hspec; exact Or.inr ⟨hspec, by simp only [State.memWrite, ht]⟩
  | _ => exact Or.inl ⟨_, by simp only [State.memWrite, ht]; rfl⟩

/-- A host access as a step stops only where the spec gives it no meaning (R23, R165). -/
theorem step_host_outcome {s : State} {t : Transaction} {rest : List Input} (hi : s.inputs = .host t :: rest)
    (h : step s = s.atTurn.hostTurn t) : (∃ u, step s = .next u) ∨ ∃ f, step s = .fault f ∧ NoMeaning s f := by
  cases hr : s.rstN with
  | false =>
    have hf : s.atTurn.hostTurn t = .fault .accessInReset := by simp [State.hostTurn, State.atTurn, hr]
    exact Or.inr ⟨_, h.trans hf, Or.inl ⟨rfl, hr, t, rest, hi⟩⟩
  | true =>
    cases ha : t.admitted with
    | false => exact Or.inl ⟨s.atTurn.reply t.errAnswer, by rw [h]; simp [State.hostTurn, State.atTurn, hr, ha]⟩
    | true =>
      cases hd : t.dir with
      | read => exact Or.inl ⟨_, h.trans (State.hostTurn_read _ t hr ha hd)⟩
      | write =>
        have hw : s.hostWrites t.off t.wdata := ⟨hr, t, rest, hi, ha, hd, rfl, rfl⟩
        rw [step_hostWrites hw]
        rcases s.atTurn.memWrite_outcome t.off t.wdata with ⟨u, hu⟩ | ⟨ho, hm⟩
        · exact Or.inl ⟨_, replyWrite_next hu⟩
        · rw [ho] at hw
          rcases s.atTurn.submit_outcome t.wdata with ⟨u, hu⟩ | ⟨hu, hb, i, hdec, hl⟩
          · exact Or.inl ⟨_, replyWrite_next (hm.trans hu)⟩
          · exact Or.inr ⟨.uninitOperand, by rw [hm, hu]; rfl, Or.inr ⟨rfl, t.wdata, i, hw, hb, hdec, hl⟩⟩

/-! ## The entropy port (R26, R118) -/

section
variable {method : WitnessDraw} {s : State} {f : InFlight} {word : Word}

/-- The turn uses the method at one point only, the in-flight candidate and the words taken with the offered one. -/
theorem State.entropyTurn_congr {method' : WitnessDraw} (hf : s.inflight = some f)
    (h : method f.a (s.entWords ++ [word]) = method' f.a (s.entWords ++ [word])) :
    s.entropyTurn method word = s.entropyTurn method' word := by
  simp only [State.entropyTurn, hf, h]

/-- A witness that a legal method makes is drawn, and its words are used up (R118). -/
theorem State.entropyTurn_of_made (hm : method.legal) (he : s.entReq = true) (hf : s.inflight = some f) {a : Nat}
    (ha : method f.a (s.entWords ++ [word]) = some a) :
    s.entropyTurn method word = { s with draws := s.draws ++ [a], entWords := [] } := by
  have hr : witnessInRange f.a a = true := by simpa [witnessInRange] using hm _ _ _ ha
  rcases s.entropyTurn_cases method word with ⟨hn, _⟩ | ⟨_, g, hg, h⟩
  · rw [he] at hn; cases hn
  · obtain rfl : f = g := Option.some.inj (hf.symm.trans hg)
    rcases h with ⟨b, hb, _, h⟩ | ⟨hn, _⟩
    · obtain rfl : a = b := Option.some.inj (ha.symm.trans hb)
      exact h
    · rw [hn a ha] at hr; cases hr

/-- A word that completes no witness is kept for the draw (R118). -/
theorem State.entropyTurn_of_unmade (he : s.entReq = true) (hf : s.inflight = some f)
    (hn : method f.a (s.entWords ++ [word]) = none) :
    s.entropyTurn method word = { s with entWords := s.entWords ++ [word] } := by
  rcases s.entropyTurn_cases method word with ⟨hr, _⟩ | ⟨_, g, hg, h⟩
  · rw [he] at hr; cases hr
  · obtain rfl : f = g := Option.some.inj (hf.symm.trans hg)
    rcases h with ⟨b, hb, _⟩ | ⟨_, h⟩
    · rw [hn] at hb; cases hb
    · exact h

/-- A platform's input is taken as its method says: the step knows the method only by what it makes of these words. -/
theorem step_entropyInput {rest : List Input} (hf : s.inflight = some f)
    (hi : s.inputs = s.entropyInput method word :: rest) :
    step s = .next ((s.withInputs rest).entropyTurn method word) := by
  rw [State.entropyInput, hf] at hi
  simp only [step, hi]
  exact congrArg _ (State.entropyTurn_congr (s := s.withInputs rest) hf rfl)

end

/-! ## The platform's parameters (R8)

Every operation of the machine commutes with a change of the three parameters. -/

/-- An outcome with a map applied to its next state. -/
def mapNext (g : State → State) : Result → Result
  | .next s => .next (g s)
  | .fault f => .fault f
  | .refused r => .refused r

@[simp] theorem mapNext_next (g : State → State) (s : State) : mapNext g (.next s) = .next (g s) := rfl
@[simp] theorem mapNext_fault (g : State → State) (f : Fault) : mapNext g (.fault f) = .fault f := rfl

section
variable (s : State) (base : Nat) (bus : BusProtocol) (secure : Bool)

@[simp] theorem State.onPlatform_inputs : (s.onPlatform base bus secure).inputs = s.inputs := rfl
@[simp] theorem State.onPlatform_rstN : (s.onPlatform base bus secure).rstN = s.rstN := rfl
@[simp] theorem State.onPlatform_inflight : (s.onPlatform base bus secure).inflight = s.inflight := rfl
@[simp] theorem State.onPlatform_draws : (s.onPlatform base bus secure).draws = s.draws := rfl
@[simp] theorem State.onPlatform_entWords : (s.onPlatform base bus secure).entWords = s.entWords := rfl
@[simp] theorem State.onPlatform_limbs : (s.onPlatform base bus secure).build.limbs = s.build.limbs := rfl
@[simp] theorem State.onPlatform_busy : (s.onPlatform base bus secure).busy = s.busy := rfl
@[simp] theorem State.onPlatform_command : (s.onPlatform base bus secure).command = s.command := rfl
@[simp] theorem State.onPlatform_loaded : (s.onPlatform base bus secure).loaded = s.loaded := rfl
@[simp] theorem State.onPlatform_entReq : (s.onPlatform base bus secure).entReq = s.entReq := rfl
@[simp] theorem State.onPlatform_memRead (off : Offset) : (s.onPlatform base bus secure).memRead off = s.memRead off := rfl
@[simp] theorem State.onPlatform_operandA (r : Reg) : (s.onPlatform base bus secure).operandA r = s.operandA r := rfl
@[simp] theorem State.onPlatform_operandB (r : Reg) : (s.onPlatform base bus secure).operandB r = s.operandB r := rfl
@[simp] theorem State.onPlatform_operandM (r : Reg) : (s.onPlatform base bus secure).operandM r = s.operandM r := rfl

@[simp] theorem State.onPlatform_withInputs (rest : List Input) :
    (s.onPlatform base bus secure).withInputs rest = (s.withInputs rest).onPlatform base bus secure := rfl
@[simp] theorem State.onPlatform_reply (a : Answer) :
    (s.onPlatform base bus secure).reply a = (s.reply a).onPlatform base bus secure := rfl
@[simp] theorem State.onPlatform_raise (e : ErrorCode) :
    (s.onPlatform base bus secure).raise e = (s.raise e).onPlatform base bus secure := rfl
@[simp] theorem State.onPlatform_completeOk (rd : Reg) (x : Nat) :
    (s.onPlatform base bus secure).completeOk rd x = (s.completeOk rd x).onPlatform base bus secure := rfl
@[simp] theorem State.onPlatform_completePred (rd : Reg) (res : Bool) :
    (s.onPlatform base bus secure).completePred rd res = (s.completePred rd res).onPlatform base bus secure := rfl
@[simp] theorem State.onPlatform_accept (w : Word) :
    (s.onPlatform base bus secure).accept w = (s.accept w).onPlatform base bus secure := rfl
@[simp] theorem State.onPlatform_refuse (w : Word) :
    (s.onPlatform base bus secure).refuse w = (s.refuse w).onPlatform base bus secure := rfl
@[simp] theorem State.onPlatform_overrun :
    (s.onPlatform base bus secure).overrun = s.overrun.onPlatform base bus secure := rfl
@[simp] theorem State.onPlatform_statusWrite (w : Word) :
    (s.onPlatform base bus secure).statusWrite w = (s.statusWrite w).onPlatform base bus secure := rfl
@[simp] theorem State.onPlatform_irqenWrite (w : Word) :
    (s.onPlatform base bus secure).irqenWrite w = (s.irqenWrite w).onPlatform base bus secure := rfl
@[simp] theorem State.onPlatform_writeLimb (i : Reg) (k : Nat) (w : Word) :
    (s.onPlatform base bus secure).writeLimb i k w = (s.writeLimb i k w).onPlatform base bus secure := rfl

@[simp] theorem State.onPlatform_abort :
    (s.onPlatform base bus secure).abort = s.abort.onPlatform base bus secure := by
  cases hf : s.inflight with
  | none => rw [State.abort_idle s hf, State.abort_idle (s.onPlatform base bus secure) hf]
  | some f => rw [State.abort_busy s f hf, State.abort_busy (s.onPlatform base bus secure) f hf]; rfl

@[simp] theorem State.onPlatform_windowWrite (i : Reg) (k : Nat) (w : Word) :
    (s.onPlatform base bus secure).windowWrite i k w = (s.windowWrite i k w).onPlatform base bus secure := by
  cases hb : s.busy with
  | true => simp [State.windowWrite, hb]
  | false => by_cases hk : k < s.build.limbs <;> simp [State.windowWrite, hb, hk]

@[simp] theorem State.onPlatform_drivePin (level : Bool) :
    (s.onPlatform base bus secure).drivePin level = (s.drivePin level).onPlatform base bus secure := by
  cases level <;> rfl

@[simp] theorem State.onPlatform_entropyTurn (method : WitnessDraw) (word : Word) :
    (s.onPlatform base bus secure).entropyTurn method word = (s.entropyTurn method word).onPlatform base bus secure := by
  cases hf : s.inflight with
  | none => simp [State.entropyTurn, hf]
  | some f =>
    cases he : s.entReq with
    | false => simp [State.entropyTurn, hf, he]
    | true =>
      simp only [State.entropyTurn, onPlatform_inflight, onPlatform_entReq, onPlatform_entWords, onPlatform_draws, hf,
        he, if_true]
      split <;> simp only [State.onPlatform, hf]

/-! ### Outcomes -/

theorem exec_onPlatform (i : Instr) :
    exec i (s.onPlatform base bus secure) = mapNext (·.onPlatform base bus secure) (exec i s) := by
  cases i with
  | modred rd ra rm => by_cases hm : s.operandM rm = 0 <;> simp [exec, execModred, hm]
  | modmul rd ra rb rm => by_cases hm : s.operandM rm = 0 <;> simp [exec, execModmul, hm]
  | modexp rd ra rb rm => by_cases hm : s.operandM rm = 0 <;> simp [exec, execModexp, hm]
  | modinv rd ra rm =>
    by_cases hm : s.operandM rm = 0
    · simp [exec, execModinv, hm]
    · by_cases hg : 1 < (extEuclid (s.operandA ra) (s.operandM rm)).1 <;> simp [exec, execModinv, hm, hg]
  | fermat2 rd ra =>
    by_cases hp : s.operandA ra = 0
    · simp [exec, execFermat2, hp]
    · simp only [exec, execFermat2, State.onPlatform_operandA, hp, if_false]; rfl
  | mrround rd ra rb =>
    cases hn : precheck (s.operandA ra) with
    | some res => simp [exec, execMrround, hn]
    | none =>
      cases hw : witnessInRange (s.operandA ra) (s.operandB rb) <;> simp [exec, execMrround, hn, hw]
  | primetest rd ra rounds =>
    cases hres : primetestResult (s.operandA ra) rounds s.draws <;> simp [exec, execPrimetest, hres]

theorem State.engineTurn_onPlatform :
    (s.onPlatform base bus secure).engineTurn = mapNext (·.onPlatform base bus secure) s.engineTurn := by
  cases hr : s.rstN with
  | false => simp [State.engineTurn, hr]
  | true =>
    cases hc : s.command with
    | none => simp [State.engineTurn, hr, hc]
    | some c => cases c <;> simp [State.engineTurn, hr, hc, exec_onPlatform]

theorem State.submit_onPlatform (w : Word) :
    (s.onPlatform base bus secure).submit w = mapNext (·.onPlatform base bus secure) (s.submit w) := by
  cases hb : s.busy with
  | true => simp [State.submit, hb]
  | false =>
    cases hd : decode w with
    | error e => simp [State.submit, hb, hd]
    | ok i =>
      cases hl : i.reads.all s.loaded <;>
        simp only [State.submit, onPlatform_busy, onPlatform_loaded, hb, hd, hl] <;> rfl

theorem State.memWrite_onPlatform (off : Offset) (w : Word) :
    (s.onPlatform base bus secure).memWrite off w = mapNext (·.onPlatform base bus secure) (s.memWrite off w) := by
  cases ht : targetOf off with
  | ctrl => simp only [State.memWrite, ht, onPlatform_abort, mapNext_next]; split <;> rfl
  | cmd => simp only [State.memWrite, ht, submit_onPlatform]
  | _ => simp [State.memWrite, ht]

theorem replyWrite_mapNext_onPlatform (r : Result) :
    replyWrite (mapNext (·.onPlatform base bus secure) r) = mapNext (·.onPlatform base bus secure) (replyWrite r) := by
  cases r <;> rfl

theorem State.hostTurn_onPlatform (t : Transaction) :
    (s.onPlatform base bus secure).hostTurn t = mapNext (·.onPlatform base bus secure) (s.hostTurn t) := by
  cases hr : s.rstN with
  | false => simp [State.hostTurn, hr]
  | true =>
    cases ha : t.admitted with
    | false => simp [State.hostTurn, hr, ha]
    | true =>
      cases hd : t.dir with
      | read => rw [s.hostTurn_read t hr ha hd, State.hostTurn_read (s.onPlatform base bus secure) t hr ha hd]; rfl
      | write =>
        rw [s.hostTurn_write t hr ha hd, State.hostTurn_write (s.onPlatform base bus secure) t hr ha hd,
          memWrite_onPlatform, replyWrite_mapNext_onPlatform]

/-- A step with other values of the platform's parameters is the same step (R8). -/
theorem step_onPlatform :
    step (s.onPlatform base bus secure) = mapNext (·.onPlatform base bus secure) (step s) := by
  simp only [step, State.onPlatform_inputs]
  split
  · exact s.engineTurn_onPlatform base bus secure
  · rw [State.onPlatform_withInputs]; exact State.hostTurn_onPlatform _ base bus secure _
  · rw [State.onPlatform_withInputs]; exact State.engineTurn_onPlatform _ base bus secure
  · simp
  · simp

end

end Sys2Proof.Machine

/-! ## The statements -/

namespace Sys2Proof
open Machine

/-- Settles O55, by the agent whose turn it is: the invariant shuts out an illegal word in flight, and of the host's
accesses only one in reset and the write of an unready command to CMD stop. -/
theorem faultsOnlyWithoutMeaning : Obligations.FaultsOnlyWithoutMeaning := by
  intro s hs
  rcases step_turn s with ⟨_, h⟩ | ⟨t, rest, hi, h⟩ | ⟨word, made, rest, _, h⟩ | ⟨level, rest, _, h⟩
  · have hfaithful : InFlightFaithful s.atTurn := hs.inflight
    obtain ⟨t, ht⟩ := State.engineTurn_next_of_faithful hfaithful
    exact Or.inl ⟨t, h.trans ht⟩
  · exact step_host_outcome hi h
  · exact Or.inl ⟨_, h⟩
  · exact Or.inl ⟨_, h⟩

/-- Settles O58: the step is the entropy turn by the method, and the method makes a witness of the words or none. -/
theorem entropyWordsMakeWitnesses : Obligations.EntropyWordsMakeWitnesses := by
  intro method s f word rest hm he hf hi
  have hstep := step_entropyInput hf hi
  refine ⟨hstep, _, hstep, ?_⟩
  cases hmade : method f.a (s.entWords ++ [word]) with
  | some a =>
    rw [State.entropyTurn_of_made (s := s.withInputs rest) hm he hf hmade]
    obtain ⟨hlo, hhi⟩ := hm _ _ _ hmade
    exact ⟨rfl, fun b hb => by cases hb; exact ⟨hlo, hhi, rfl, rfl⟩, fun hn => by cases hn⟩
  | none =>
    rw [State.entropyTurn_of_unmade (s := s.withInputs rest) he hf hmade]
    exact ⟨rfl, fun b hb => (by cases hb), fun _ => ⟨rfl, rfl⟩⟩

/-- Settles O59, from the commutation of a step with the change of the parameters. -/
theorem platformParametersInvisible : Obligations.PlatformParametersInvisible := by
  intro s base bus secure
  refine ⟨fun t h => ?_, fun f h => ?_, fun r h => ?_⟩ <;> rw [step_onPlatform, h] <;> rfl

end Sys2Proof
end

section
/-! PROOFS. The statements about the block's state (10_state.md): what every step keeps, and which event changes which
part of the state. -/

/-! ## What an abort and a host access keep -/

namespace Sys2Proof.Machine

section
variable (s : State)

@[simp] theorem State.abort_build : s.abort.build = s.build := by cases h : s.inflight <;> simp [State.abort, h]
@[simp] theorem State.abort_pred : s.abort.pred = s.pred := by cases h : s.inflight <;> simp [State.abort, h]
@[simp] theorem State.abort_ovr : s.abort.ovr = s.ovr := by cases h : s.inflight <;> simp [State.abort, h]
@[simp] theorem State.abort_cmdLast : s.abort.cmdLast = s.cmdLast := by cases h : s.inflight <;> simp [State.abort, h]
@[simp] theorem State.abort_rstN : s.abort.rstN = s.rstN := by cases h : s.inflight <;> simp [State.abort, h]

/-- No command is in flight after an abort (R145). -/
@[simp] theorem State.abort_inflight : s.abort.inflight = none := by cases h : s.inflight <;> simp [State.abort, h]

end

/-! A host access leaves the build, PRED and the reset pin (R28, R34, R165). -/

section
variable {s u : State}

theorem HostEffect.build_eq (hu : HostEffect s u) : u.build = s.build := by
  cases hu with
  | abort => exact State.abort_build _
  | _ => rfl

theorem HostEffect.pred_eq (hu : HostEffect s u) : u.pred = s.pred := by
  cases hu with
  | abort => exact State.abort_pred _
  | _ => rfl

theorem HostEffect.rstN_eq (hu : HostEffect s u) : u.rstN = s.rstN := by
  cases hu with
  | abort => exact State.abort_rstN _
  | _ => rfl

end

/-! ## The build is constant (R28) -/

theorem step_build {s t : State} (h : step s = .next t) : t.build = s.build := by
  cases step_kind h with
  | host u a hu => exact hu.build_eq
  | _ => rfl

/-! ## The STATUS invariants (R36) -/

theorem ErrorCode.code_le (e : ErrorCode) : e.code.toNat ≤ 5 := by cases e <;> decide

/-- An outcome code is not 0, the code of success (R140). -/
theorem ErrorCode.code_ne_zero (e : ErrorCode) : e.code ≠ 0 := by cases e <;> decide

/-- The end of a command meets the STATUS invariants. -/
theorem Ended.flags {t : State} {c : BitVec 4} (h : Ended t c) (hc : c.toNat ≤ 5) : FlagsConsistent t := by
  obtain ⟨hb, hd, rfl, _⟩ := h
  exact ⟨fun hb' => (by rw [hb] at hb'; cases hb'), fun _ => hd, hc⟩

theorem State.raise_flags (s : State) (e : ErrorCode) : FlagsConsistent (s.raise e) :=
  Ended.flags (s.raise_failed e).2.2.1 e.code_le

theorem State.completeOk_flags (s : State) (rd : Reg) (x : Nat) : FlagsConsistent (s.completeOk rd x) :=
  Ended.flags (c := 0) ⟨rfl, rfl, rfl, rfl, rfl⟩ (by decide)

theorem State.statusWrite_flags {s : State} (hs : FlagsConsistent s) (w : Word) : FlagsConsistent (s.statusWrite w) := by
  cases hw : w.getLsbD 1 with
  | true =>
    have hdone : (s.statusWrite w).done = false := by rw [State.statusWrite_done, hw, Bool.not_true, Bool.and_false]
    have hcode : (s.statusWrite w).errCode = 0 := by rw [State.statusWrite_errCode, hw, if_pos rfl]
    exact ⟨fun _ => ⟨hdone, hcode⟩, fun h => absurd hcode h, by rw [hcode]; decide⟩
  | false =>
    have hdone : (s.statusWrite w).done = s.done := by rw [State.statusWrite_done, hw, Bool.not_false, Bool.and_true]
    have hcode : (s.statusWrite w).errCode = s.errCode := by rw [State.statusWrite_errCode, hw, if_neg Bool.false_ne_true]
    rw [FlagsConsistent, hdone, hcode]
    exact hs

theorem HostEffect.flags {s u : State} (hu : HostEffect s u) (hs : FlagsConsistent s) : FlagsConsistent u := by
  cases hu with
  | none => exact hs
  | abort f w hw hb hf => exact (State.abort_ended s.atTurn f hf).flags (by decide)
  | status w hw => exact State.statusWrite_flags (s := s.atTurn) hs w
  | irqen w hw => exact hs
  | discard off w hw hb ho => exact hs
  | refuse w hw hb e hd =>
    have hidle : (s.atTurn.refuse w).busy = false := hb
    exact ⟨fun h => (by rw [hidle] at h; cases h), fun _ => rfl, ErrorCode.code_le .illegalCmd⟩
  | accept w hw hb i hd hl => exact ⟨fun _ => ⟨rfl, rfl⟩, fun h => absurd rfl h, Nat.zero_le _⟩
  | limb off w i k hw hb hk h128 ho => exact hs

theorem step_flags {s t : State} (hs : FlagsConsistent s) (h : step s = .next t) : FlagsConsistent t := by
  cases step_kind h with
  | engineRaises he f i hf hd e => exact s.atTurn.raise_flags e
  | engineCompletes he f i hf hd hp x hx => exact s.atTurn.completeOk_flags i.dest x
  | engineDecides he f i hf hd hp res => exact s.atTurn.completeOk_flags i.dest res.toNat
  | host u a hu hr => exact hu.flags hs
  | resetAsserted rest hi => exact ⟨fun hb => (by cases hb), fun he => absurd rfl he, Nat.zero_le _⟩
  | _ => exact hs

/-! ## The in-flight command (R39, R41) -/

theorem inFlightFaithful_of_idle {s : State} (h : s.inflight = none) : InFlightFaithful s := by
  intro f hf
  rw [h] at hf; cases hf

/-- An accepted command is faithful: the snapshots are the registers at acceptance (R141). -/
theorem State.accept_faithful {s : State} {w : Word} {i : Instr} (hd : decode w = .ok i)
    (hl : i.reads.all s.loaded = true) : InFlightFaithful (s.accept w) := by
  intro f hf
  cases hf
  exact ⟨⟨i, hd, hl⟩, rfl, rfl, rfl, rfl⟩

theorem HostEffect.faithful {s u : State} (hu : HostEffect s u) (hs : InFlightFaithful s) : InFlightFaithful u := by
  cases hu with
  | abort f w hw hb hf => exact inFlightFaithful_of_idle s.atTurn.abort_inflight
  | refuse w hw hb e hd => exact inFlightFaithful_of_idle ((State.busy_false_iff s).1 hb)
  | accept w hw hb i hd hl => exact State.accept_faithful hd hl
  | limb off w i k hw hb hk h128 ho => exact inFlightFaithful_of_idle ((State.busy_false_iff s).1 hb)
  | _ => exact hs

theorem step_faithful {s t : State} (hs : InFlightFaithful s) (h : step s = .next t) : InFlightFaithful t := by
  cases step_kind h with
  | engineRaises he f i hf hd e => exact inFlightFaithful_of_idle rfl
  | engineCompletes he f i hf hd hp x hx => exact inFlightFaithful_of_idle rfl
  | engineDecides he f i hf hd hp res => exact inFlightFaithful_of_idle rfl
  | host u a hu hr => exact hu.faithful hs
  | resetAsserted rest hi => exact inFlightFaithful_of_idle rfl
  | _ => exact hs

/-! ## The operands in range (R7, R21) -/

theorem HostEffect.operands {s u : State} (hu : HostEffect s u) (hs : OperandsInRange s) : OperandsInRange u := by
  cases hu with
  | abort f w hw hb hf =>
    intro i
    rw [State.abort_reg s.atTurn f hf, State.abort_build]
    split
    · exact anyOperand_lt _ _
    · exact hs i
  | limb off w i k hw hb hk h128 ho =>
    intro j
    rw [State.writeLimb_reg]
    split
    · exact setLimb_lt _ _ _ _ (hs i) hk
    · exact hs j
  | _ => exact hs

/-- A value in range is written to the destination only (R142). -/
theorem State.completeOk_operands {s : State} (hs : OperandsInRange s) (rd : Reg) {x : Nat}
    (hx : x < 2 ^ s.build.width) : OperandsInRange (s.completeOk rd x) := by
  intro i
  rw [State.completeOk_reg]
  split
  · exact hx
  · exact hs i

/-- The modulus operand of a faithful in-flight command is in range. -/
theorem operandM_lt {s : State} {f : InFlight} (hs : InFlightFaithful s) (hr : OperandsInRange s)
    (hf : s.inflight = some f) (r : Reg) : s.operandM r < 2 ^ s.build.width := by
  obtain ⟨_, _, _, _, hm⟩ := hs f hf
  have : s.operandM r = s.reg (rmField f.word) := by simp only [State.operandM, hf, hm]
  rw [this]
  exact hr _

/-- The result of a predicate command fits in every legal width (R8, R34). -/
theorem toNat_lt_of_legal {b : Build} (hb : b.legal = true) (res : Bool) : res.toNat < 2 ^ b.width := by
  have hw : 1 ≤ b.width := by
    have := (Build.limbs_le b hb).1
    rw [Build.width]; omega
  calc res.toNat < 2 ^ 1 := res.toNat_lt
    _ ≤ 2 ^ b.width := Nat.pow_le_pow_right (by decide) hw

theorem step_operands {s t : State} (hb : s.build.legal = true) (hf : InFlightFaithful s) (hs : OperandsInRange s)
    (h : step s = .next t) : OperandsInRange t := by
  cases step_kind h with
  | engineCompletes he f i hfl hd hp x hx =>
    obtain ⟨r, hlt⟩ := exec_completeOk_lt i s.atTurn x hp hx
    exact State.completeOk_operands (s := s.atTurn) hs _ (hlt.trans (operandM_lt (s := s.atTurn) hf hs hfl r))
  | engineDecides he f i hfl hd hp res =>
    exact State.completeOk_operands (s := s.atTurn) hs _ (toNat_lt_of_legal hb res)
  | host u a hu hr => exact hu.operands hs
  | resetAsserted rest hi =>
    intro i
    rw [State.assertReset_reg]
    exact anyOperand_lt _ _
  | _ => exact hs

/-! ## The ghost bits (R20, R23) -/

theorem HostEffect.marks {s u : State} (hu : HostEffect s u) (hs : MarksWithinOperand s) : MarksWithinOperand u := by
  cases hu with
  | abort f w hw hb hf =>
    intro i k hk
    rw [State.abort_build] at hk
    rw [State.initBit, State.abort_init s.atTurn f hf]
    split
    · exact BitVec.getLsbD_zero
    · exact hs i k hk
  | limb off w i k hw hb hk h128 ho =>
    intro j l hl
    have hne : l ≠ k := (Nat.lt_of_lt_of_le hk hl).ne'
    rw [State.writeLimb_initBit _ _ _ _ _ _ h128, decide_eq_false hne, Bool.and_false, Bool.or_false]
    exact hs j l hl
  | _ => exact hs

/-- A completed command loads the limbs of its destination and no bit above them (R23, R142). -/
theorem State.completeOk_marks {s : State} (hb : s.build.legal = true) (hs : MarksWithinOperand s) (rd : Reg) (x : Nat) :
    MarksWithinOperand (s.completeOk rd x) := by
  intro i k hk
  rw [State.completeOk_initBit]
  split
  · rw [allLoaded_bit _ (Build.limbs_le _ hb).2]
    exact decide_eq_false (Nat.not_lt.2 hk)
  · exact hs i k hk

theorem State.assertReset_initBit (s : State) (i : Reg) (k : Nat) : s.assertReset.initBit i k = false := by
  simp [State.initBit]

theorem step_marks {s t : State} (hb : s.build.legal = true) (hs : MarksWithinOperand s) (h : step s = .next t) :
    MarksWithinOperand t := by
  cases step_kind h with
  | engineCompletes he f i hf hd hp x hx => exact State.completeOk_marks (s := s.atTurn) hb hs _ _
  | engineDecides he f i hf hd hp res => exact State.completeOk_marks (s := s.atTurn) hb hs _ res.toNat
  | host u a hu hr => exact hu.marks hs
  | resetAsserted rest hi => exact fun i k _ => s.atTurn.assertReset_initBit i k
  | _ => exact hs

/-! ## The hidden state of PRIMETEST (R26, R42, R118) -/

theorem drawsFaithful_of_nil {s : State} (h : s.draws = []) : DrawsFaithful s := fun hne => absurd h hne

theorem wordsFaithful_of_nil {s : State} (h : s.entWords = []) : WordsFaithful s := fun hne => absurd h hne

theorem HostEffect.drawsFaithful {s u : State} (hu : HostEffect s u) (hs : DrawsFaithful s) : DrawsFaithful u := by
  cases hu with
  | abort f w hw hb hf =>
    obtain ⟨_, _, _, hd, _⟩ := State.abort_ended s.atTurn f hf
    exact drawsFaithful_of_nil hd
  | accept w hw hb i hd hl => exact drawsFaithful_of_nil rfl
  | _ => exact hs

theorem HostEffect.wordsFaithful {s u : State} (hu : HostEffect s u) (hs : WordsFaithful s) : WordsFaithful u := by
  cases hu with
  | abort f w hw hb hf =>
    obtain ⟨_, _, _, _, he⟩ := State.abort_ended s.atTurn f hf
    exact wordsFaithful_of_nil he
  | accept w hw hb i hd hl => exact wordsFaithful_of_nil rfl
  | _ => exact hs

/-- A witness in range that was asked for leaves at most one witness per round, each in range (R117, R118). -/
theorem drawsFaithful_append {s : State} {f : InFlight} {a : Nat} (hs : DrawsFaithful s) (he : s.entReq = true)
    (hf : s.inflight = some f) (ha : witnessInRange f.a a = true) :
    DrawsFaithful { s.atTurn with draws := s.draws ++ [a], entWords := [] } := by
  obtain ⟨_, g, rd, ra, rounds, hg, hd, hn⟩ := s.entReq_iff.1 he
  obtain rfl : f = g := Option.some.inj (hf.symm.trans hg)
  obtain ⟨hrun, hlen⟩ := primetestResult_none hn
  refine fun _ => ⟨f, rd, ra, rounds, hf, hd, hrun, by simpa using hlen, fun b hb => ?_⟩
  rcases List.mem_append.1 hb with hold | hnew
  · obtain ⟨g, _, _, _, hg, _, _, _, hall⟩ := hs (List.ne_nil_of_mem hold)
    obtain rfl : f = g := Option.some.inj (hf.symm.trans hg)
    exact hall b hold
  · obtain rfl : b = a := List.mem_singleton.1 hnew
    simpa [witnessInRange] using ha

theorem step_drawsFaithful {s t : State} (hs : DrawsFaithful s) (h : step s = .next t) : DrawsFaithful t := by
  cases step_kind h with
  | engineRaises he f i hf hd e => exact drawsFaithful_of_nil rfl
  | engineCompletes he f i hf hd hp x hx => exact drawsFaithful_of_nil rfl
  | engineDecides he f i hf hd hp res => exact drawsFaithful_of_nil rfl
  | host u a hu hr => exact hu.drawsFaithful hs
  | drawTaken word draw rest hi f hf he hd => exact drawsFaithful_append hs he hf hd
  | resetAsserted rest hi => exact drawsFaithful_of_nil rfl
  | _ => exact hs

theorem step_wordsFaithful {s t : State} (hs : WordsFaithful s) (h : step s = .next t) : WordsFaithful t := by
  cases step_kind h with
  | engineRaises he f i hf hd e => exact wordsFaithful_of_nil rfl
  | engineCompletes he f i hf hd hp x hx => exact wordsFaithful_of_nil rfl
  | engineDecides he f i hf hd hp res => exact wordsFaithful_of_nil rfl
  | host u a hu hr => exact hu.wordsFaithful hs
  | wordKept word made rest hi he =>
    obtain ⟨_, hneeds⟩ := s.entReq_iff.1 he
    exact fun _ => hneeds
  | drawTaken word draw rest hi f hf he hd => exact wordsFaithful_of_nil rfl
  | resetAsserted rest hi => exact wordsFaithful_of_nil rfl
  | _ => exact hs

/-! ## Held in reset (R165, R166) -/

theorem State.assertReset_held (s : State) : HeldInReset s.assertReset :=
  fun _ => ⟨rfl, by simp [State.statusWord, State.busy, State.err], by simp [State.irqenWord], rfl, rfl, rfl,
    s.assertReset_initBit⟩

/-- While the pin is low nothing is in flight, so that no command ends and no witness is asked for (R165). -/
theorem HeldInReset.rstN_of_inflight {s : State} (hs : HeldInReset s) {f : InFlight} (hf : s.inflight = some f) :
    s.rstN = true := by
  by_contra hr
  obtain ⟨hidle, _⟩ := hs (Bool.eq_false_iff.2 hr)
  rw [hidle] at hf; cases hf

/-- Out of reset there is nothing to hold. -/
theorem heldInReset_of_rstN {s : State} (h : s.rstN = true) : HeldInReset s := fun hr => by rw [h] at hr; cases hr

theorem step_held {s t : State} (hs : HeldInReset s) (h : step s = .next t) : HeldInReset t := by
  cases step_kind h with
  | engineRaises he f i hf hd e => exact heldInReset_of_rstN (hs.rstN_of_inflight hf)
  | engineCompletes he f i hf hd hp x hx => exact heldInReset_of_rstN (hs.rstN_of_inflight hf)
  | engineDecides he f i hf hd hp res => exact heldInReset_of_rstN (hs.rstN_of_inflight hf)
  | host u a hu hr => exact heldInReset_of_rstN (hu.rstN_eq.trans hr)
  | wordKept word made rest hi he => exact heldInReset_of_rstN (s.entReq_iff.1 he).1
  | drawTaken word draw rest hi f hf he hd => exact heldInReset_of_rstN (s.entReq_iff.1 he).1
  | resetReleased rest hi => exact heldInReset_of_rstN rfl
  | resetAsserted rest hi => exact s.atTurn.assertReset_held
  | _ => exact hs

/-! ## What a command leaves unchanged (R142, R143) -/

theorem SameReg.refl (s : State) (r : Reg) : SameReg s s r := ⟨rfl, rfl⟩

theorem SameControl.refl (s : State) : SameControl s s := ⟨rfl, rfl, rfl, rfl, rfl, rfl, rfl, rfl, rfl⟩

/-- A predicate command leaves PRED equal to the value of its destination when it ends without an error (R34). -/
theorem State.completePred_reg_dest (s : State) (rd : Reg) (res : Bool) :
    (s.completePred rd res).reg rd = (s.completePred rd res).pred.toNat := by
  rw [State.completePred_reg, if_pos rfl, State.completePred_pred]

/-- The successful completion of a predicate command, told from an error and from a wait (R34, R140). -/
theorem exec_predicate_reg_dest {i : Instr} {s t : State} (hp : i.isPredicate = true) (hb : s.busy = true)
    (h : exec i s = .next t) (hidle : t.busy = false) (hok : t.errCode = 0) : t.reg i.dest = t.pred.toNat := by
  rcases exec_cases i s with ⟨e, hx⟩ | ⟨hnp, _⟩ | ⟨_, res, hx⟩ | ⟨_, _, _, _, hx⟩
  · rw [hx] at h; cases h
    exact absurd hok e.code_ne_zero
  · rw [hp] at hnp; cases hnp
  · rw [hx] at h; cases h
    exact s.completePred_reg_dest i.dest res
  · rw [hx] at h; cases h
    rw [hb] at hidle; cases hidle

/-! ## Which event changes which part of the state -/

/-- A host access changes OVR only as a discarded write or as a write to STATUS (R35, R37). -/
theorem HostEffect.ovr_cases {s u : State} (hu : HostEffect s u) :
    u.ovr = s.ovr
      ∨ (s.busy = true ∧ u.ovr = true ∧ ∃ off w, s.hostWrites off w ∧ (off = 0x014 ∨ 0x1000 ≤ off.toNat))
      ∨ ∃ w, s.hostWrites 0x00C w ∧ u.ovr = (s.ovr && !w.getLsbD 4) := by
  cases hu with
  | abort => exact Or.inl (State.abort_ovr _)
  | status w hw => exact Or.inr (Or.inr ⟨w, hw, rfl⟩)
  | discard off w hw hb ho => exact Or.inr (Or.inl ⟨hb, rfl, off, w, hw, ho⟩)
  | _ => exact Or.inl rfl

/-- A host access changes CMDLAST only as a write to CMD while idle, accepted or refused (R39). -/
theorem HostEffect.cmdLast_cases {s u : State} (hu : HostEffect s u) :
    u.cmdLast = s.cmdLast ∨ (s.busy = false ∧ s.hostWrites 0x014 u.cmdLast) := by
  cases hu with
  | abort => exact Or.inl (State.abort_cmdLast _)
  | refuse w hw hb => exact Or.inr ⟨hb, hw⟩
  | accept w hw hb => exact Or.inr ⟨hb, hw⟩
  | _ => exact Or.inl rfl

/-- A host access changes an operand register only as a write to its window while idle, or as the abort of a command
whose destination it is (R22, R145). -/
theorem HostEffect.reg_cases {s u : State} (hu : HostEffect s u) (r : Reg) :
    u.reg r = s.reg r
      ∨ (s.busy = false ∧ ∃ off w k, s.hostWrites off w ∧ k < s.build.limbs ∧ k < 128
          ∧ off.toNat = 0x1000 + 0x200 * r.val + 4 * k)
      ∨ ∃ f, s.inflight = some f ∧ rdField f.word = r ∧ ∃ w, s.hostWrites 0x008 w ∧ w.getLsbD 0 = true := by
  cases hu with
  | abort f w hw hb hf =>
    rw [State.abort_reg s.atTurn f hf]
    split
    · next heq => exact Or.inr (Or.inr ⟨f, hf, heq.symm, w, hw, hb⟩)
    · exact Or.inl rfl
  | limb off w i k hw hb hk h128 ho =>
    rw [State.writeLimb_reg]
    split
    · next heq =>
      subst heq
      exact Or.inr (Or.inl ⟨hb, off, w, k, hw, hk, h128, ho⟩)
    · exact Or.inl rfl
  | _ => exact Or.inl rfl

/-- A host access changes what is in flight only by acceptance or by an abort (R31). -/
theorem HostEffect.inflight_cases {s u : State} (hu : HostEffect s u) :
    u.inflight = s.inflight
      ∨ (s.busy = false ∧ ∃ w i, s.hostWrites 0x014 w ∧ decode w = .ok i ∧ u.cmdLast = w)
      ∨ (s.busy = true ∧ u.done = true ∧ ∃ w, s.hostWrites 0x008 w ∧ w.getLsbD 0 = true) := by
  cases hu with
  | abort f w hw hb hf =>
    obtain ⟨_, hd, _⟩ := State.abort_ended s.atTurn f hf
    exact Or.inr (Or.inr ⟨(s.busy_iff).2 ⟨f, hf⟩, hd, w, hw, hb⟩)
  | accept w hw hb i hd => exact Or.inr (Or.inl ⟨hb, w, i, hw, hd, rfl⟩)
  | _ => exact Or.inl rfl

/-- PRED changes by reset and by the successful completion of a predicate command (R34). -/
theorem step_pred_cases {s t : State} (h : step s = .next t) :
    t.pred = s.pred ∨ (s.resetNext ∧ t.pred = false)
      ∨ ∃ f i, s.engineNext = true ∧ s.inflight = some f ∧ decode f.word = .ok i ∧ i.isPredicate = true
          ∧ t.errCode = 0 ∧ t.inflight = none ∧ t.reg i.dest = t.pred.toNat := by
  cases step_kind h with
  | engineDecides he f i hf hd hp res =>
    exact Or.inr (Or.inr ⟨f, i, he, hf, hd, hp, rfl, rfl, State.completePred_reg_dest _ _ _⟩)
  | host u a hu => exact Or.inl hu.pred_eq
  | resetAsserted rest hi => exact Or.inr (Or.inl ⟨⟨rest, hi⟩, rfl⟩)
  | _ => exact Or.inl rfl

/-- OVR changes by a discarded host write, a write to STATUS, and reset (R35). -/
theorem step_ovr_cases {s t : State} (h : step s = .next t) :
    t.ovr = s.ovr
      ∨ (s.busy = true ∧ t.ovr = true ∧ ∃ off w, s.hostWrites off w ∧ (off = 0x014 ∨ 0x1000 ≤ off.toNat))
      ∨ (∃ w, s.hostWrites 0x00C w ∧ t.ovr = (s.ovr && !w.getLsbD 4))
      ∨ (s.resetNext ∧ t.ovr = false) := by
  cases step_kind h with
  | host u a hu =>
    rcases hu.ovr_cases with h | h | h
    · exact Or.inl h
    · exact Or.inr (Or.inl h)
    · exact Or.inr (Or.inr (Or.inl h))
  | resetAsserted rest hi => exact Or.inr (Or.inr (Or.inr ⟨⟨rest, hi⟩, rfl⟩))
  | _ => exact Or.inl rfl

/-- CMDLAST changes by a write to CMD while idle and by reset (R39). -/
theorem step_cmdLast_cases {s t : State} (h : step s = .next t) :
    t.cmdLast = s.cmdLast ∨ (s.resetNext ∧ t.cmdLast = 0) ∨ (s.busy = false ∧ s.hostWrites 0x014 t.cmdLast) := by
  cases step_kind h with
  | host u a hu =>
    rcases hu.cmdLast_cases with h | h
    · exact Or.inl h
    · exact Or.inr (Or.inr h)
  | resetAsserted rest hi => exact Or.inr (Or.inl ⟨⟨rest, hi⟩, rfl⟩)
  | _ => exact Or.inl rfl

/-- An operand register changes by reset, by the host's window while idle, by the abort and by the successful completion
of a command whose destination it is (R22). -/
theorem step_reg_cases {s t : State} (h : step s = .next t) (r : Reg) :
    t.reg r = s.reg r ∨ s.resetNext
      ∨ (s.busy = false ∧ ∃ off w k, s.hostWrites off w ∧ k < s.build.limbs ∧ k < 128
          ∧ off.toNat = 0x1000 + 0x200 * r.val + 4 * k)
      ∨ (∃ f, s.inflight = some f ∧ rdField f.word = r ∧ ∃ w, s.hostWrites 0x008 w ∧ w.getLsbD 0 = true)
      ∨ (s.engineNext = true ∧ ∃ f i, s.inflight = some f ∧ decode f.word = .ok i ∧ i.dest = r ∧ t.errCode = 0
          ∧ t.inflight = none) := by
  cases step_kind h with
  | engineCompletes he f i hf hd hp x hx =>
    rw [State.completeOk_reg]
    split
    · next heq => exact Or.inr (Or.inr (Or.inr (Or.inr ⟨he, f, i, hf, hd, heq.symm, rfl, rfl⟩)))
    · exact Or.inl rfl
  | engineDecides he f i hf hd hp res =>
    rw [State.completePred_reg]
    split
    · next heq => exact Or.inr (Or.inr (Or.inr (Or.inr ⟨he, f, i, hf, hd, heq.symm, rfl, rfl⟩)))
    · exact Or.inl rfl
  | host u a hu =>
    rcases hu.reg_cases r with h | h | h
    · exact Or.inl h
    · exact Or.inr (Or.inr (Or.inl h))
    · exact Or.inr (Or.inr (Or.inr (Or.inl h)))
  | resetAsserted rest hi => exact Or.inr (Or.inl ⟨rest, hi⟩)
  | _ => exact Or.inl rfl

/-- What is in flight changes by acceptance, by the engine, by an abort and by reset (R31). -/
theorem step_inflight_cases {s t : State} (h : step s = .next t) :
    t.inflight = s.inflight
      ∨ (s.busy = false ∧ ∃ w i, s.hostWrites 0x014 w ∧ decode w = .ok i ∧ t.cmdLast = w)
      ∨ (s.busy = true ∧ t.done = true ∧ (s.engineNext = true ∨ ∃ w, s.hostWrites 0x008 w ∧ w.getLsbD 0 = true))
      ∨ (s.resetNext ∧ t.inflight = none) := by
  cases step_kind h with
  | engineRaises he f i hf => exact Or.inr (Or.inr (Or.inl ⟨(s.busy_iff).2 ⟨f, hf⟩, rfl, Or.inl he⟩))
  | engineCompletes he f i hf => exact Or.inr (Or.inr (Or.inl ⟨(s.busy_iff).2 ⟨f, hf⟩, rfl, Or.inl he⟩))
  | engineDecides he f i hf => exact Or.inr (Or.inr (Or.inl ⟨(s.busy_iff).2 ⟨f, hf⟩, rfl, Or.inl he⟩))
  | host u a hu =>
    rcases hu.inflight_cases with h | h | ⟨hb, hd, hw⟩
    · exact Or.inl h
    · exact Or.inr (Or.inl h)
    · exact Or.inr (Or.inr (Or.inl ⟨hb, hd, Or.inr hw⟩))
  | resetAsserted rest hi => exact Or.inr (Or.inr (Or.inr ⟨⟨rest, hi⟩, rfl⟩))
  | _ => exact Or.inl rfl

/-! ## The register map by offset (R52) -/

theorem targetOf_reserved {off : Offset} (hlo : 0x018 ≤ off.toNat) (hhi : off.toNat < 0x1000) :
    targetOf off = .reserved := by
  have hspec := targetOf_spec off
  cases ht : targetOf off with
  | reserved => rfl
  | window i k =>
    rw [ht] at hspec
    obtain ⟨hge, _⟩ := hspec
    omega
  | _ =>
    rw [ht] at hspec
    subst hspec
    exact absurd hlo (by decide)

theorem targetOf_window {off : Offset} (h : 0x1000 ≤ off.toNat) : ∃ i k, targetOf off = .window i k :=
  ⟨_, _, by rw [targetOf, offset_bit12, decide_eq_true h, if_pos rfl]⟩

/-- The effect of an admitted host write is the step's, answered OK (R56). -/
theorem step_hostWrites_next {s u : State} {off : Offset} {w : Word} (h : s.hostWrites off w)
    (hu : s.atTurn.memWrite off w = .next u) : step s = .next (u.reply ⟨.ok, none⟩) := by
  rw [step_hostWrites h, replyWrite_next hu]

section
variable (s : State) (w : Word)

theorem State.memWrite_ignored {off : Offset} (h : targetOf off ∈ [.id, .param, .reserved]) :
    s.memWrite off w = .next s := by
  simp only [List.mem_cons, List.not_mem_nil, or_false] at h
  rcases h with h | h | h <;> simp only [State.memWrite, h]

theorem State.memWrite_status : s.memWrite 0x00C w = .next (s.statusWrite w) := rfl

theorem State.memWrite_irqen : s.memWrite 0x010 w = .next (s.irqenWrite w) := rfl

theorem State.memWrite_cmd : s.memWrite 0x014 w = s.submit w := rfl

/-- While busy a write to CMD or to the operand window is discarded (R35). -/
theorem State.memWrite_discarded (hb : s.busy = true) {off : Offset} (ho : off = 0x014 ∨ 0x1000 ≤ off.toNat) :
    s.memWrite off w = .next s.overrun := by
  rcases ho with rfl | ho
  · rw [State.memWrite_cmd, State.submit, if_pos hb]
  · obtain ⟨i, k, ht⟩ := targetOf_window ho
    simp only [State.memWrite, ht, State.windowWrite, if_pos hb]

theorem State.memRead_reserved {off : Offset} (h : targetOf off = .reserved) : s.memRead off = 0 := by
  simp only [State.memRead, h]

theorem State.memRead_irqen : s.memRead 0x010 = s.irqenWord := rfl

end

theorem State.resetOf_memRead_irqen (b : Build) : (State.resetOf b).memRead 0x010 = 0 := by
  rw [State.memRead_irqen]
  simp [State.irqenWord, State.resetOf]

/-! ## PARAM (R28) -/

/-- PARAM bit by bit (R28). -/
theorem paramWord_getLsbD (b : Build) (k : Nat) :
    (paramWord b).getLsbD k =
      if k < 16 then (BitVec.ofNat 16 b.limbs).getLsbD k
      else decide (k = 19) || decide (k = 20) && decide (b.expMethod = .montgomery) := by
  simp only [paramWord, BitVec.getLsbD_append]
  split
  · rfl
  · next h16 =>
    have hlo : 16 ≤ k := Nat.le_of_not_lt h16
    by_cases hhi : k < 21
    · clear h16
      interval_cases k <;> cases b.expMethod <;> rfl
    · have hk : ¬ k - 16 < 4 ∧ ¬ k - 16 - 4 < 1 ∧ k ≠ 19 ∧ k ≠ 20 := by omega
      simp [hk]

theorem paramWord_limbs (b : Build) : (paramWord b).extractLsb' 0 16 = BitVec.ofNat 16 b.limbs := by
  apply BitVec.eq_of_getLsbD_eq
  intro k hk
  rw [BitVec.getLsbD_extractLsb', paramWord_getLsbD, Nat.zero_add, if_pos hk, decide_eq_true hk, Bool.true_and]

theorem paramWord_limbSize (b : Build) : (paramWord b).extractLsb' 16 4 = 8#4 := by
  apply BitVec.eq_of_getLsbD_eq
  intro k hk
  rw [BitVec.getLsbD_extractLsb', paramWord_getLsbD]
  interval_cases k <;> simp

theorem paramWord_method (b : Build) : (paramWord b).getLsbD 20 = true ↔ b.expMethod = .montgomery := by
  rw [paramWord_getLsbD, if_neg (by decide), decide_eq_false (by decide), Bool.false_or, decide_eq_true rfl,
    Bool.true_and, decide_eq_true_iff]

theorem paramWord_upper (b : Build) : (paramWord b).extractLsb' 21 11 = 0#11 := by
  apply BitVec.eq_of_getLsbD_eq
  intro k hk
  have : ¬ 21 + k < 16 ∧ 21 + k ≠ 19 ∧ 21 + k ≠ 20 := by omega
  simp [BitVec.getLsbD_extractLsb', paramWord_getLsbD, this]

/-! ## The witness port (R26, R118) -/

theorem State.operandA_of_inflight {s : State} {f : InFlight} (hf : s.inflight = some f) (r : Reg) :
    s.operandA r = f.a := by
  simp only [State.operandA, hf]

theorem step_entropy {s : State} {word : Word} {made : Option Nat} {rest : List Input}
    (hi : s.inputs = .entropy word made :: rest) :
    step s = .next (s.atTurn.entropyTurn (fun _ _ => made) word) := by
  simp only [step, hi, State.atTurn_host hi]

/-- `ent_req` is 1 exactly while the engine's turn would leave a PRIMETEST waiting (R26, R158). -/
theorem State.entReq_iff_waits (s : State) :
    s.entReq = true ↔ s.rstN = true ∧ ∃ f rd ra rounds, s.inflight = some f
      ∧ decode f.word = .ok (.primetest rd ra rounds) ∧ exec (.primetest rd ra rounds) s = .next s := by
  have hwaits : ∀ {f : InFlight} (rd ra : Reg) (rounds : Nat), s.inflight = some f →
      (exec (.primetest rd ra rounds) s = .next s ↔ primetestResult f.a rounds s.draws = none) := by
    intro f rd ra rounds hf
    rw [exec_primetest_waits_iff rd ra rounds s (s.busy_iff.2 ⟨f, hf⟩), State.operandA_of_inflight hf]
  rw [State.entReq_iff]
  constructor
  · rintro ⟨hr, f, rd, ra, rounds, hf, hd, hn⟩
    exact ⟨hr, f, rd, ra, rounds, hf, hd, (hwaits rd ra rounds hf).2 hn⟩
  · rintro ⟨hr, f, rd, ra, rounds, hf, hd, hx⟩
    exact ⟨hr, f, rd, ra, rounds, hf, hd, (hwaits rd ra rounds hf).1 hx⟩

end Sys2Proof.Machine

/-! ## The statements -/

namespace Sys2Proof
open Machine

/-- Settles O53, clause by clause of the invariant, each over the kinds of step. -/
theorem everyStepKeepsInvariant : Obligations.EveryStepKeepsInvariant := by
  intro s t hs h
  exact ⟨(congrArg Build.legal (step_build h)).trans hs.build, step_operands hs.build hs.inflight hs.operands h,
    step_flags hs.flags h, step_marks hs.build hs.marks h, step_faithful hs.inflight h, step_drawsFaithful hs.draws h,
    step_wordsFaithful hs.words h, step_held hs.held h⟩

/-- Settles O51: `step_flags`, which needs no other clause of the invariant. -/
theorem flagInvariantKept : Obligations.FlagInvariantKept := fun _ _ => step_flags

/-- Settles O52: `step_faithful`; while a command is in flight no register and no ghost bit changes. -/
theorem snapshotsEqualRegisters : Obligations.SnapshotsEqualRegisters := fun _ _ => step_faithful

/-- Settles O25, by how a command's rule ends: an error, a completion, or a wait. -/
theorem commandFrame : Obligations.CommandFrame := by
  intro i s t h
  rcases exec_cases i s with ⟨e, hx⟩ | ⟨_, x, hx⟩ | ⟨hp, res, hx⟩ | ⟨_, _, _, _, hx⟩ <;> rw [hx] at h <;> cases h
  · obtain ⟨hregs, hpred, _, hctl⟩ := s.raise_failed e
    exact ⟨fun r _ => hregs r, fun _ => hpred, hctl⟩
  · obtain ⟨⟨_, _, hregs, _, hctl⟩, hpred⟩ := s.completeOk_completed i.dest x
    exact ⟨hregs, fun _ => hpred, hctl⟩
  · obtain ⟨⟨_, _, hregs, _, hctl⟩, _⟩ := s.completePred_completed i.dest res
    exact ⟨hregs, fun hn => (by rw [hp] at hn; cases hn), hctl⟩
  · exact ⟨fun r _ => SameReg.refl s r, fun _ => rfl, SameControl.refl s⟩

/-- Settles O30, from the bits of PARAM and from `step_build`. -/
theorem paramFields : Obligations.ParamFields := by
  refine ⟨fun b hb => ⟨?_, paramWord_limbSize b, paramWord_method b, paramWord_upper b⟩, by decide,
    fun s h => ⟨_, step_hostReads h, rfl⟩,
    fun s w h => ⟨_, step_hostWrites_next h (State.memWrite_ignored s.atTurn w ?_), rfl⟩,
    fun s t => step_build⟩
  · have hle := (Build.limbs_le b hb).2
    rw [paramWord_limbs, BitVec.toNat_ofNat, Build.width]
    omega
  · decide

/-- Settles O32: the register map sends these offsets to targets that ignore writes. -/
theorem idAndReservedOffsets : Obligations.IdAndReservedOffsets := by
  refine ⟨fun s off w h ho => ⟨_, none, step_hostWrites_next h (State.memWrite_ignored _ w ?_), rfl, rfl⟩,
    fun s off h hlo hhi => ⟨_, step_hostReads h, rfl, ?_⟩, fun s h => ⟨_, step_hostReads h, rfl, rfl⟩⟩
  · rcases ho with rfl | ⟨hlo, hhi⟩
    · decide
    · rw [targetOf_reserved hlo hhi]; decide
  · rw [State.memRead_reserved _ (targetOf_reserved hlo hhi)]; rfl

/-- Settles O33: while busy R36 leaves DONE and ERRCODE nothing to clear. -/
theorem statusWriteClears : Obligations.StatusWriteClears := by
  refine ⟨fun s w h => ⟨_, step_hostWrites_next h (State.memWrite_status _ w), rfl, rfl, rfl, ?_, rfl⟩,
    fun s h => ⟨_, step_hostReads h, rfl⟩⟩
  intro hflags hb
  obtain ⟨hd, he⟩ := hflags.1 hb
  constructor
  · show (s.done && !w.getLsbD 1) = s.done
    rw [hd, Bool.false_and]
  · show (if w.getLsbD 1 then 0 else s.errCode) = s.errCode
    rw [he, ite_self]

/-- Settles O34, from the effect of the write and IRQEN bit by bit. -/
theorem irqenWriteDrivesIrq : Obligations.IrqenWriteDrivesIrq := by
  refine ⟨State.resetOf_memRead_irqen,
    fun s w h => ⟨_, step_hostWrites_next h (State.memWrite_irqen _ w), rfl, rfl, rfl, ?_, ?_⟩⟩
  · show (s.done && w.getLsbD 0 || s.ovr && w.getLsbD 1) = true ↔ _
    simp only [Bool.or_eq_true, Bool.and_eq_true]
  · intro k
    rw [State.memRead_irqen, State.irqenWord_getLsbD]
    match k with
    | 0 => simp
    | 1 => simp
    | k + 2 => simp

/-- Settles O44, by what becomes of an offered word: ignored, a witness, or kept. -/
theorem witnessTakenOnRequest : Obligations.WitnessTakenOnRequest := by
  refine ⟨fun s word made rest hi => ⟨_, step_entropy hi, ?_⟩, State.entReq_iff_waits⟩
  have hin : s.atTurn.inputs = rest := by rw [State.atTurn_host hi, State.withInputs_inputs]
  rcases s.atTurn.entropyTurn_cases (fun _ _ => made) word with ⟨he, h⟩ | ⟨he, g, hg, h⟩
  · have he' : s.entReq = false := he
    rw [h]
    exact ⟨rfl, hin, fun _ => ⟨rfl, rfl⟩, fun f hr => (by rw [he'] at hr; cases hr)⟩
  · have he' : s.entReq = true := he
    have hfg : ∀ f, s.inflight = some f → g = f := fun f hf => Option.some.inj (hg.symm.trans hf)
    rcases h with ⟨a, rfl, ha, h⟩ | ⟨hnone, h⟩
    · rw [h]
      refine ⟨rfl, hin, fun hr => (by rw [he'] at hr; cases hr), fun f _ hf => ?_⟩
      obtain rfl := hfg f hf
      have hrange : 2 ≤ a ∧ a ≤ g.a - 2 := by simpa [witnessInRange] using ha
      exact ⟨fun b hb _ _ => (by cases hb; exact ⟨rfl, rfl⟩), fun hout => absurd hrange (hout a rfl)⟩
    · rw [h]
      refine ⟨rfl, hin, fun hr => (by rw [he'] at hr; cases hr), fun f _ hf => ?_⟩
      obtain rfl := hfg f hf
      refine ⟨fun a ha hlo hhi => ?_, fun _ => ⟨rfl, rfl⟩⟩
      have hout := hnone a ha
      rw [witnessInRange, decide_eq_true hlo, decide_eq_true hhi] at hout
      cases hout

/-- Settles O46, from the events that change PRED and the end of a predicate command. -/
theorem predWrittenByPredicatesOnly : Obligations.PredWrittenByPredicatesOnly :=
  ⟨fun _ _ => step_pred_cases, fun _ _ _ => exec_predicate_reg_dest, fun _ => rfl⟩

/-- Settles O47, from the events that change OVR. -/
theorem ovrSetByDiscardedWritesOnly : Obligations.OvrSetByDiscardedWritesOnly := by
  refine ⟨fun s off w h hb ho => ⟨_, step_hostWrites_next h (State.memWrite_discarded s.atTurn w hb ho), rfl⟩,
    fun s t h => ?_, fun b => rfl⟩
  rcases step_ovr_cases h with heq | ⟨hb, ht, hw⟩ | ⟨w, hw, heq⟩ | ⟨hr, ht⟩
  · exact ⟨fun h0 h1 => (by rw [heq, h0] at h1; cases h1), fun h1 h0 => (by rw [heq, h1] at h0; cases h0)⟩
  · exact ⟨fun _ _ => ⟨hb, hw⟩, fun _ h0 => (by rw [ht] at h0; cases h0)⟩
  · refine ⟨fun h0 h1 => (by rw [heq, h0] at h1; cases h1), fun h1 h0 => Or.inr ⟨w, hw, ?_⟩⟩
    rw [heq, h1] at h0
    simpa using h0
  · exact ⟨fun _ h1 => (by rw [ht] at h1; cases h1), fun _ _ => Or.inl hr⟩

/-- Settles O48, from the outcomes of a submission and the events that change CMDLAST. -/
theorem cmdLastIsLastIdleWord : Obligations.CmdLastIsLastIdleWord := by
  refine ⟨fun s h => ⟨_, step_hostReads h, rfl⟩, fun s t w hw h => ?_, fun s t => step_cmdLast_cases, fun b => rfl⟩
  rw [step_hostWrites hw, State.memWrite_cmd] at h
  rcases s.atTurn.submit_cases w with ⟨hb, e⟩ | ⟨hb, _, e⟩ | ⟨hb, i, _, ⟨_, e⟩ | ⟨_, e⟩⟩ <;> rw [e] at h <;> cases h
  · exact (if_pos hb).symm
  · exact (if_neg (Bool.eq_false_iff.1 hb)).symm
  · exact (if_neg (Bool.eq_false_iff.1 hb)).symm

/-- Settles O49, from the events that change a register. -/
theorem whoWritesOperandRegisters : Obligations.WhoWritesOperandRegisters := by
  intro s t r h hne
  exact (step_reg_cases h r).resolve_left hne

/-- Settles O50, from the events that change what is in flight. -/
theorem busyRisesByAcceptance : Obligations.BusyRisesByAcceptance := by
  intro s t h
  rcases step_inflight_cases h with heq | ⟨hb, hw⟩ | ⟨hb, hdone, hby⟩ | ⟨hr, hnone⟩
  · have hbusy : t.busy = s.busy := congrArg Option.isSome heq
    exact ⟨fun h0 h1 => (by rw [hbusy, h0] at h1; cases h1), fun h1 h0 => (by rw [hbusy, h1] at h0; cases h0)⟩
  · exact ⟨fun _ _ => hw, fun h1 => (by rw [hb] at h1; cases h1)⟩
  · exact ⟨fun h0 => (by rw [hb] at h0; cases h0), fun _ _ => Or.inl ⟨hdone, hby⟩⟩
  · have hidle : t.busy = false := (t.busy_false_iff).2 hnone
    exact ⟨fun _ h1 => (by rw [hidle] at h1; cases h1), fun _ _ => Or.inr hr⟩

end Sys2Proof
end

section
/-! PROOFS. The statements about the host port (20_memory.md): what a read answers, which accesses are refused, the
limbs of an operand, repeated writes, and the platform's addresses. -/

namespace Sys2Proof.Machine

/-! ## What a read answers (R54, R55) -/

section
variable (s : State)

theorem State.memRead_id : s.memRead 0x000 = 0x4D414531 := rfl

theorem State.memRead_param : s.memRead 0x004 = paramWord s.build := rfl

theorem State.memRead_ctrl : s.memRead 0x008 = 0 := rfl

theorem State.memRead_status : s.memRead 0x00C = s.statusWord := rfl

theorem State.memRead_cmd : s.memRead 0x014 = s.cmdLast := rfl

theorem State.memRead_window {off : Offset} {i : Reg} {k : Nat} (hk : k < 128)
    (ho : off.toNat = 0x1000 + 0x200 * i.val + 4 * k) : s.memRead off = s.windowRead i k := by
  simp only [State.memRead, targetOf_of_toNat off i k hk ho]

theorem State.err_eq_decide : s.err = decide (s.errCode ≠ 0) := by
  rw [State.err, bne, beq_eq_decide, decide_not]

end

theorem limbOf_toNat (x k : Nat) : (limbOf x k).toNat = x / 2 ^ (32 * k) % 2 ^ 32 := BitVec.toNat_ofNat _ _

section
variable {s : State} (i : Reg) {k : Nat}

/-- An idle read of a loaded limb is the limb (R54). -/
theorem State.windowRead_loaded (hb : s.busy = false) (hk : k < s.build.limbs) (hi : s.initBit i k = true) :
    s.windowRead i k = limbOf (s.reg i) k := by
  rw [State.windowRead, hb, if_neg Bool.false_ne_true, if_pos hk, if_pos hi]

/-- An idle read above the operand is 0 (R53, R54). -/
theorem State.windowRead_above (hb : s.busy = false) (hk : s.build.limbs ≤ k) : s.windowRead i k = 0 := by
  rw [State.windowRead, hb, if_neg Bool.false_ne_true, if_neg (Nat.not_lt.2 hk)]

end

/-! ## Accesses that are refused (R57) -/

/-- The lowest two bits of an offset are its remainder by 4. -/
theorem offset_aligned_iff (off : Offset) : off.extractLsb' 0 2 = 0 ↔ off.toNat % 4 = 0 := by
  rw [← BitVec.toNat_inj, BitVec.extractLsb'_toNat, Nat.shiftRight_zero]
  rfl

theorem Transaction.admitted_iff (t : Transaction) :
    t.admitted = true ↔ t.size = 4 ∧ t.off.toNat % 4 = 0 ∧ (t.dir = .write → t.strobes = 0xF#4) := by
  have hdir : (t.dir = .read ∨ t.strobes = 0xF#4) ↔ (t.dir = .write → t.strobes = 0xF#4) := by
    cases t.dir <;> simp
  rw [← offset_aligned_iff, ← hdir, ← and_assoc]
  simp only [Transaction.admitted, Bool.and_eq_true, Bool.or_eq_true, beq_iff_eq]

/-- An access that is not admitted, outside reset, is answered and has no other effect (R57). -/
theorem step_notAdmitted {s : State} {t : Transaction} {rest : List Input} (hr : s.rstN = true)
    (hi : s.inputs = .host t :: rest) (ha : t.admitted = false) :
    step s = .next ((s.withInputs rest).reply t.errAnswer) := by
  simp [step, hi, State.hostTurn, hr, ha]

theorem Transaction.errAnswer_read {t : Transaction} (h : t.dir = .read) : t.errAnswer.rdata = some 0 := if_pos h

/-! ## Repeated writes (R60) -/

theorem setLimb_setLimb (x k : Nat) (w : Word) : setLimb (setLimb x k w) k w = setLimb x k w := by
  rw [setLimb_split (setLimb x k w), setLimb_div_succ, setLimb_mod, ← setLimb_split]

section
variable (s : State) (w : Word)

/-- Bit 1 decides whether the write clears or keeps DONE and ERRCODE, bit 4 whether OVR (R37). -/
theorem State.statusWrite_statusWrite : (s.statusWrite w).statusWrite w = s.statusWrite w := by
  have hd : ((s.statusWrite w).statusWrite w).done = (s.statusWrite w).done := by
    simp only [State.statusWrite_done, Bool.and_assoc, Bool.and_self]
  have he : ((s.statusWrite w).statusWrite w).errCode = (s.statusWrite w).errCode := by
    simp only [State.statusWrite_errCode]
    split <;> rfl
  have ho : ((s.statusWrite w).statusWrite w).ovr = (s.statusWrite w).ovr := by
    simp only [State.statusWrite_ovr, Bool.and_assoc, Bool.and_self]
  calc (s.statusWrite w).statusWrite w
      = { s.statusWrite w with done := ((s.statusWrite w).statusWrite w).done
                               errCode := ((s.statusWrite w).statusWrite w).errCode
                               ovr := ((s.statusWrite w).statusWrite w).ovr } := rfl
    _ = s.statusWrite w := by rw [hd, he, ho]

theorem State.irqenWrite_irqenWrite : (s.irqenWrite w).irqenWrite w = s.irqenWrite w := rfl

theorem State.writeLimb_writeLimb (i : Reg) (k : Nat) :
    (s.writeLimb i k w).writeLimb i k w = s.writeLimb i k w := by
  have hv : ((s.writeLimb i k w).writeLimb i k w).v = (s.writeLimb i k w).v := by
    rw [State.writeLimb_v, State.writeLimb_reg, if_pos rfl, setLimb_setLimb, State.writeLimb_v, Vector.set_set]
  have hi : ((s.writeLimb i k w).writeLimb i k w).init = (s.writeLimb i k w).init := by
    rw [State.writeLimb_init, State.writeLimb_init, get_set_reg, if_pos rfl, BitVec.or_assoc, BitVec.or_self,
      Vector.set_set]
  calc (s.writeLimb i k w).writeLimb i k w
      = { s.writeLimb i k w with v := ((s.writeLimb i k w).writeLimb i k w).v
                                 init := ((s.writeLimb i k w).writeLimb i k w).init } := rfl
    _ = s.writeLimb i k w := by rw [hv, hi]

end

section
variable {s : State} (w : Word) (i : Reg) {k : Nat}

/-- An idle write to a limb of the operand stores it (R56). -/
theorem State.windowWrite_stored (hb : s.busy = false) (hk : k < s.build.limbs) :
    s.windowWrite i k w = s.writeLimb i k w := by
  rw [State.windowWrite, hb, if_neg Bool.false_ne_true, if_pos hk]

/-- An idle write above the operand is ignored (R53, R56). -/
theorem State.windowWrite_above (hb : s.busy = false) (hk : s.build.limbs ≤ k) : s.windowWrite i k w = s := by
  rw [State.windowWrite, hb, if_neg Bool.false_ne_true, if_neg (Nat.not_lt.2 hk)]

theorem State.windowWrite_windowWrite (hb : s.busy = false) (k : Nat) :
    (s.windowWrite i k w).windowWrite i k w = s.windowWrite i k w := by
  rcases Nat.lt_or_ge k s.build.limbs with hk | hk
  · have hagain := State.windowWrite_stored (s := s.writeLimb i k w) w i hb hk
    rw [State.windowWrite_stored w i hb hk, hagain, State.writeLimb_writeLimb]
  · rw [State.windowWrite_above w i hb hk, State.windowWrite_above w i hb hk]

end

/-! ## The platform's addresses (R51) -/

/-- An address has the offset by which it lies above the base, 13 bits reaching exactly the block's 8 KiB. -/
theorem offsetOf_eq_some_iff (b : Build) (address : Nat) (off : Offset) :
    offsetOf b address = some off ↔ address = b.base + off.toNat := by
  have hoff : off.toNat < 0x2000 := off.isLt
  rw [offsetOf, Option.ite_none_right_eq_some, Option.some_inj, ← BitVec.toNat_inj, BitVec.toNat_ofNat]
  omega

end Sys2Proof.Machine

/-! ## The statements -/

namespace Sys2Proof
open Machine

/-- Settles O29, from what a read answers at each offset of the register map. -/
theorem readAnswersRegisterMap : Obligations.ReadAnswersRegisterMap := by
  intro s off h
  refine ⟨_, s.memRead off, step_hostReads h, rfl, rfl, rfl, ?id, ?param, ?ctrl, ?status, ?irqen, ?cmd, ?reserved,
    ?window⟩
  case id => rintro rfl; exact s.memRead_id
  case param => rintro rfl; exact s.memRead_param
  case ctrl => rintro rfl; exact s.memRead_ctrl
  case status =>
    rintro rfl k
    rw [State.memRead_status, State.statusWord_getLsbD, State.err_eq_decide]
  case irqen =>
    rintro rfl k
    rw [State.memRead_irqen, State.irqenWord_getLsbD]
  case cmd => rintro rfl; exact s.memRead_cmd
  case reserved => exact fun hlo hhi => s.memRead_reserved (targetOf_reserved hlo hhi)
  case window =>
    intro i k hk ho hb
    rw [s.memRead_window hk ho]
    exact ⟨fun hlt hi => by rw [State.windowRead_loaded i hb hlt hi, limbOf_toNat],
      fun hle => State.windowRead_above i hb hle⟩

/-- Settles O31: such a transaction is not admitted. -/
theorem otherAccessesRefused : Obligations.OtherAccessesRefused := by
  intro s t rest hr hi hbad
  have ha : t.admitted = false := by
    rw [Bool.eq_false_iff, ne_eq, Transaction.admitted_iff]
    rintro ⟨hsize, halign, hstrobes⟩
    rcases hbad with h | h | ⟨hw, h⟩
    · exact h hsize
    · exact h halign
    · exact h (hstrobes hw)
  exact ⟨_, t.errAnswer.rdata, step_notAdmitted hr hi ha, rfl, rfl, rfl, Transaction.errAnswer_read⟩

/-- Settles O38: the lowest `LIMBS` limbs give the operand modulo `2^W`. -/
theorem operandIsSumOfLimbs : Obligations.OperandIsSumOfLimbs := by
  intro s i hlt
  rw [sum_limbs_mod]
  exact (Nat.mod_eq_of_lt hlt).symm

/-- Settles O39, effect by effect. -/
theorem repeatedWritesIdempotent : Obligations.RepeatedWritesIdempotent := fun s w i k =>
  ⟨s.statusWrite_statusWrite w, s.irqenWrite_irqenWrite w, fun hb => State.windowWrite_windowWrite w i hb k⟩

/-- Settles O57: an 8 KiB aligned base adds nothing to the low 13 bits. -/
theorem platformAddressReachesOffset : Obligations.PlatformAddressReachesOffset := by
  refine ⟨offsetOf_eq_some_iff, fun b address off hb h => ?_, fun b address t i => ?_⟩
  · have haligned : b.base % 0x2000 = 0 := ((Build.legal_iff b).1 hb).2
    have hoff : off.toNat < 0x2000 := off.isLt
    rw [(offsetOf_eq_some_iff b address off).1 h]
    omega
  · rw [hostAt, Option.map_eq_some_iff]
    simp only [eq_comm (b := i)]

end Sys2Proof
end

section
/-! PROOFS. The statements about the command word (30_encoding.md): the table of R78 read through the three grounds of
R77, a word packed from its own fields, the assembler, and the writes of LDV. -/

namespace Sys2Proof

/-! ## Masked words -/

/-- Where a mask covers `sub` and the masked word is 0 there, the word itself is. -/
theorem and_eq_zero_of_masked {w mask val sub : Word} (h : w &&& mask = val) (hs : mask &&& sub = sub)
    (hv : val &&& sub = 0) : w &&& sub = 0 := by
  rw [← hs, ← BitVec.and_assoc, h, hv]

theorem and_opcodeByte (w : Word) : w &&& 0x000000FF#32 = (opField w).setWidth 32 := by
  apply BitVec.eq_of_getLsbD_eq
  intro k hk
  have hbyte : ∀ k : Fin 32, (0x000000FF#32).getLsbD k = decide (k.val < 8) := by decide
  rw [BitVec.getLsbD_and, hbyte ⟨k, hk⟩, BitVec.getLsbD_setWidth, opField, BitVec.getLsbD_extractLsb', Nat.zero_add,
    decide_eq_true hk, Bool.true_and, Bool.and_comm]

/-! ## The rows -/

section
variable {row row' : Row} {w : Word}

theorem Row.accepts_iff_masked : row.accepts w = true ↔ w &&& row.maskBits = row.matchBits := beq_iff_eq

theorem Row.mask_opcode (h : row ∈ rows) : opField row.maskBits = 0xFF := by
  revert row; decide

/-- A row's mask covers the opcode byte, the reserved bits and its must-be-zero fields (R78). -/
theorem Row.maskBits_eq (h : row ∈ rows) :
    row.maskBits = 0x000000FF#32 ||| reservedMask ||| mustBeZeroMask (opField row.matchBits) := by
  revert row; decide

theorem Row.matchBits_eq (h : row ∈ rows) : row.matchBits = (opField row.matchBits).setWidth 32 := by
  revert row; decide

theorem Row.eq_of_opcode (h : row ∈ rows) (h' : row' ∈ rows) (he : opField row.matchBits = opField row'.matchBits) :
    row = row' := by
  have hnodup : (rows.map (fun r => opField r.matchBits)).Nodup := by decide
  exact List.inj_on_of_nodup_map hnodup h h' he

theorem Row.opField_of_accepts (h : row ∈ rows) (ha : row.accepts w = true) : opField w = opField row.matchBits :=
  opField_of_masked (Row.accepts_iff_masked.1 ha) (Row.mask_opcode h)

/-- No word is accepted by two rows (R76). -/
theorem Row.eq_of_accepts (h : row ∈ rows) (h' : row' ∈ rows) (ha : row.accepts w = true) (ha' : row'.accepts w = true) :
    row = row' :=
  Row.eq_of_opcode h h' ((Row.opField_of_accepts h ha).symm.trans (Row.opField_of_accepts h' ha'))

/-- A row accepts the words of its opcode that have no reserved bit and no unused field set (R77, R78). -/
theorem Row.accepts_iff (h : row ∈ rows) :
    row.accepts w = true ↔ opField w = opField row.matchBits ∧ reservedBitSet w = false ∧ unusedFieldSet w = false := by
  have hres : row.maskBits &&& reservedMask = reservedMask ∧ row.matchBits &&& reservedMask = 0 := by
    revert row; decide
  have hun : row.maskBits &&& mustBeZeroMask (opField row.matchBits) = mustBeZeroMask (opField row.matchBits)
      ∧ row.matchBits &&& mustBeZeroMask (opField row.matchBits) = 0 := by
    revert row; decide
  simp only [reservedBitSet, unusedFieldSet, bne_eq_false_iff_eq]
  constructor
  · intro ha
    have hop := Row.opField_of_accepts h ha
    have hm := Row.accepts_iff_masked.1 ha
    rw [hop]
    exact ⟨rfl, and_eq_zero_of_masked hm hres.1 hres.2, and_eq_zero_of_masked hm hun.1 hun.2⟩
  · rintro ⟨hop, hr, hu⟩
    rw [hop] at hu
    rw [Row.accepts_iff_masked, Row.maskBits_eq h, BitVec.and_or_distrib_left, BitVec.and_or_distrib_left, hr, hu,
      and_opcodeByte, hop, ← Row.matchBits_eq h]
    simp

/-! ## Decoding -/

theorem decode_of_accepts (h : row ∈ rows) (ha : row.accepts w = true) : decode w = .ok (row.make w) := by
  have hfind : rows.find? (fun r => r.accepts w) = some row := by
    cases hf : rows.find? (fun r => r.accepts w) with
    | none => exact absurd ha (List.find?_eq_none.1 hf row h)
    | some r =>
      have hr := List.mem_of_find?_eq_some hf
      have har : r.accepts w = true := List.find?_some (p := fun r : Row => r.accepts w) hf
      rw [Row.eq_of_accepts hr h har ha]
  rw [decode, hfind]

theorem decode_eq_ok_iff {i : Instr} : decode w = .ok i ↔ ∃ row ∈ rows, row.accepts w = true ∧ row.make w = i := by
  constructor
  · intro h
    rw [decode] at h
    split at h
    · next r hf =>
      have ha : r.accepts w = true := List.find?_some (p := fun r : Row => r.accepts w) hf
      exact ⟨r, List.mem_of_find?_eq_some hf, ha, Except.ok.inj h⟩
    · cases h
  · rintro ⟨r, hr, ha, rfl⟩
    exact decode_of_accepts hr ha

theorem decode_error_iff : (∃ e, decode w = .error e) ↔ ∀ row ∈ rows, row.accepts w = false := by
  constructor
  · rintro ⟨e, he⟩ r hr
    by_contra ha
    rw [decode_of_accepts hr (by simpa using ha)] at he
    cases he
  · intro h
    have hf : rows.find? (fun r => r.accepts w) = none := List.find?_eq_none.2 fun r hr => by simp [h r hr]
    exact ⟨illegalReason w, by rw [decode, hf]⟩

end

theorem opcodeIllegal_iff (w : Word) : opcodeIllegal w = true ↔ opField w = 0 ∨ 8 ≤ (opField w).toNat := by
  simp [opcodeIllegal]

/-- The opcodes of the table are `0x01` to `0x07` (R74). -/
theorem exists_row_iff (w : Word) : (∃ row ∈ rows, opField w = opField row.matchBits) ↔ opcodeIllegal w = false := by
  have h : ∀ op : BitVec 8, (∃ row ∈ rows, op = opField row.matchBits) ↔ (op == 0 || decide (8 ≤ op.toNat)) = false := by
    decide
  exact h (opField w)

/-- The illegal words are those of the three grounds of R77. -/
theorem decode_error_iff_grounds (w : Word) :
    (∃ e, decode w = .error e) ↔ opcodeIllegal w = true ∨ reservedBitSet w = true ∨ unusedFieldSet w = true := by
  rw [decode_error_iff]
  constructor
  · intro h
    by_contra hn
    simp only [not_or, Bool.not_eq_true] at hn
    obtain ⟨ho, hr, hu⟩ := hn
    obtain ⟨row, hrow, hop⟩ := (exists_row_iff w).2 ho
    have ha := (Row.accepts_iff hrow).2 ⟨hop, hr, hu⟩
    rw [h row hrow] at ha
    cases ha
  · intro h row hrow
    by_contra ha
    obtain ⟨hop, hr, hu⟩ := (Row.accepts_iff hrow).1 (by simpa using ha)
    have ho := (exists_row_iff w).1 ⟨row, hrow, hop⟩
    simp [ho, hr, hu] at h

/-! ## The fields -/

section
variable (w : Word)

theorem opField_toNat : (opField w).toNat = w.toNat % 2 ^ 8 := by
  rw [opField, BitVec.extractLsb'_toNat, Nat.shiftRight_zero]

theorem rdField_val : (rdField w).val = w.toNat / 2 ^ 8 % 2 ^ 3 := by rw [← Nat.shiftRight_eq_div_pow]; rfl
theorem raField_val : (raField w).val = w.toNat / 2 ^ 12 % 2 ^ 3 := by rw [← Nat.shiftRight_eq_div_pow]; rfl
theorem rbField_val : (rbField w).val = w.toNat / 2 ^ 16 % 2 ^ 3 := by rw [← Nat.shiftRight_eq_div_pow]; rfl
theorem rmField_val : (rmField w).val = w.toNat / 2 ^ 20 % 2 ^ 3 := by rw [← Nat.shiftRight_eq_div_pow]; rfl

theorem immField_eq : immField w = w.toNat / 2 ^ 24 := by
  have hlt : w.toNat < 2 ^ 32 := w.isLt
  rw [immField, BitVec.extractLsb'_toNat, Nat.shiftRight_eq_div_pow]
  omega

end

/-! ## Fields under a mask -/

/-- A word is 0 under a mask when its bits there are. -/
theorem and_eq_zero_iff (w m : Word) :
    w &&& m = 0 ↔ ∀ k, k < 32 → m.getLsbD k = true → w.getLsbD k = false := by
  constructor
  · intro h k _ hk
    have hbit := congrArg (fun x => BitVec.getLsbD x k) h
    simpa [hk] using hbit
  · intro h
    apply BitVec.eq_of_getLsbD_eq
    intro k hk
    cases hm : m.getLsbD k with
    | false => simp [hm]
    | true => simp [hm, h k hk hm]

/-- A field is 0 exactly when its bits are masked to 0. -/
theorem extractLsb'_eq_zero_iff (w m : Word) (lo len : Nat) (hlen : lo + len ≤ 32)
    (hm : ∀ k, k < 32 → m.getLsbD k = decide (lo ≤ k ∧ k < lo + len)) : w.extractLsb' lo len = 0 ↔ w &&& m = 0 := by
  rw [and_eq_zero_iff]
  constructor
  · intro h k hk hmk
    rw [hm k hk, decide_eq_true_eq] at hmk
    have hbit := congrArg (fun x => BitVec.getLsbD x (k - lo)) h
    have hin : k - lo < len := by omega
    have hback : lo + (k - lo) = k := by omega
    simpa [hin, hback] using hbit
  · intro h
    apply BitVec.eq_of_getLsbD_eq
    intro j hj
    have hbit := h (lo + j) (by omega) (by rw [hm _ (by omega)]; simp [hj])
    simp [hbit]

section
variable (w : Word)

theorem rbField_eq_zero_iff : rbField w = 0 ↔ w &&& 0x00070000#32 = 0 := by
  rw [← extractLsb'_eq_zero_iff w _ 16 3 (by decide) (by decide)]
  exact BitVec.toFin_inj (y := 0#3)

theorem rmField_eq_zero_iff : rmField w = 0 ↔ w &&& 0x00700000#32 = 0 := by
  rw [← extractLsb'_eq_zero_iff w _ 20 3 (by decide) (by decide)]
  exact BitVec.toFin_inj (y := 0#3)

theorem immField_eq_zero_iff : immField w = 0 ↔ w &&& 0xFF000000#32 = 0 := by
  rw [← extractLsb'_eq_zero_iff w _ 24 8 (by decide) (by decide)]
  exact BitVec.toNat_inj (y := 0#8)

theorem reservedBitSet_iff :
    reservedBitSet w = true
      ↔ w.getLsbD 11 = true ∨ w.getLsbD 15 = true ∨ w.getLsbD 19 = true ∨ w.getLsbD 23 = true := by
  have hmask : ∀ k, k < 32 → (reservedMask.getLsbD k = true ↔ k ∈ [11, 15, 19, 23]) := by decide
  have hzero : w &&& reservedMask = 0 ↔ ∀ k ∈ [11, 15, 19, 23], w.getLsbD k = false := by
    rw [and_eq_zero_iff]
    constructor
    · intro h k hk
      have hlt : k < 32 := by
        simp only [List.mem_cons, List.not_mem_nil, or_false] at hk
        omega
      exact h k hlt ((hmask k hlt).2 hk)
    · exact fun h k hlt hk => h k ((hmask k hlt).1 hk)
  rw [reservedBitSet, bne_iff_ne, ne_eq, hzero]
  simp [-not_and, Classical.not_and_iff_not_or_not]

theorem and_or_eq_zero_iff (a b : Word) : w &&& (a ||| b) = 0 ↔ w &&& a = 0 ∧ w &&& b = 0 := by
  rw [BitVec.and_or_distrib_left]
  exact BitVec.or_eq_zero_iff

/-- The fields that R75 lists as must-be-zero, opcode by opcode. -/
theorem unusedFieldSet_iff :
    unusedFieldSet w = true
      ↔ ((opField w).toNat ∈ [1, 4] ∧ (rbField w ≠ 0 ∨ immField w ≠ 0))
        ∨ ((opField w).toNat ∈ [2, 3] ∧ immField w ≠ 0)
        ∨ (opField w = 5 ∧ (rbField w ≠ 0 ∨ rmField w ≠ 0 ∨ immField w ≠ 0))
        ∨ (opField w = 6 ∧ (rmField w ≠ 0 ∨ immField w ≠ 0))
        ∨ (opField w = 7 ∧ (rbField w ≠ 0 ∨ rmField w ≠ 0)) := by
  rw [unusedFieldSet, bne_iff_ne, mustBeZeroMask]
  have hnat : ∀ n : BitVec 8, opField w = n ↔ (opField w).toNat = n.toNat := fun n => BitVec.toNat_inj.symm
  simp only [hnat]
  split
  -- an opcode of no row has no unused field
  case h_8 => simp_all
  all_goals
    next hop =>
      simp only [and_or_eq_zero_iff, ← rbField_eq_zero_iff, ← rmField_eq_zero_iff, ← immField_eq_zero_iff, ne_eq, hop]
      simp [-not_and, Classical.not_and_iff_not_or_not, or_assoc]

end

/-! ## Packing the fields of a word -/

section
variable (w : Word)

theorem rdField_testBit (j : Nat) : (rdField w).val.testBit j = (decide (j < 3) && w.getLsbD (8 + j)) :=
  BitVec.getLsbD_extractLsb' ..

theorem raField_testBit (j : Nat) : (raField w).val.testBit j = (decide (j < 3) && w.getLsbD (12 + j)) :=
  BitVec.getLsbD_extractLsb' ..

theorem rbField_testBit (j : Nat) : (rbField w).val.testBit j = (decide (j < 3) && w.getLsbD (16 + j)) :=
  BitVec.getLsbD_extractLsb' ..

theorem rmField_testBit (j : Nat) : (rmField w).val.testBit j = (decide (j < 3) && w.getLsbD (20 + j)) :=
  BitVec.getLsbD_extractLsb' ..

theorem immField_testBit (j : Nat) : (immField w).testBit j = (decide (j < 8) && w.getLsbD (24 + j)) :=
  BitVec.getLsbD_extractLsb' ..

theorem opField_testBit (j : Nat) : (opField w).toNat.testBit j = (decide (j < 8) && w.getLsbD j) := by
  have h : (opField w).getLsbD j = (decide (j < 8) && w.getLsbD (0 + j)) := BitVec.getLsbD_extractLsb' ..
  rwa [Nat.zero_add] at h

/-- A word with no reserved bit set is packed from its own fields: R71 covers all its other bits. -/
theorem packWord_fields_self {w : Word} (hr : reservedBitSet w = false) :
    packWord (immField w) (rmField w) (rbField w) (raField w) (rdField w) (opField w).toNat = w := by
  have hres := (reservedBitSet_iff w).not.1 (Bool.eq_false_iff.1 hr)
  simp only [not_or, Bool.not_eq_true] at hres
  obtain ⟨h11, h15, h19, h23⟩ := hres
  apply BitVec.eq_of_getLsbD_eq
  intro k hk
  rw [packWord_getLsbD _ _ _ _ _ _ _ hk]
  simp only [rdField_testBit, raField_testBit, rbField_testBit, rmField_testBit, immField_testBit, opField_testBit]
  interval_cases k <;> simp [-BitVec.getLsbD_eq_getElem, h11, h15, h19, h23]

end

/-! ## Encoding -/

/-- The encoding of the command a row makes of a word it accepts is the word. -/
theorem Row.encode_make {row : Row} {w : Word} (h : row ∈ rows) (ha : row.accepts w = true) : encode (row.make w) = w := by
  obtain ⟨hop, hr, hu⟩ := (Row.accepts_iff h).1 ha
  have hpack := packWord_fields_self hr
  have hzero := (unusedFieldSet_iff w).not.1 (Bool.eq_false_iff.1 hu)
  rw [hop] at hpack hzero
  simp only [rows, List.mem_cons, List.not_mem_nil, or_false] at h
  rcases h with rfl | rfl | rfl | rfl | rfl | rfl | rfl
  all_goals
    simp [opField] at hzero hpack
    simpa [encode, hzero] using hpack

theorem encode_of_decode {w : Word} {i : Instr} (h : decode w = .ok i) : encode i = w := by
  obtain ⟨row, hrow, ha, rfl⟩ := decode_eq_ok_iff.1 h
  exact Row.encode_make hrow ha

theorem wf_of_decode {w : Word} {i : Instr} (h : decode w = .ok i) : i.wf = true := by
  obtain ⟨row, hrow, _, rfl⟩ := decode_eq_ok_iff.1 h
  have himm : immField w ≤ maxRounds := Nat.le_of_lt_succ (w.extractLsb' 24 8).isLt
  simp only [rows, List.mem_cons, List.not_mem_nil, or_false] at hrow
  rcases hrow with rfl | rfl | rfl | rfl | rfl | rfl | rfl <;> simp [Instr.wf, himm]

section
variable {imm op : Nat} {rm rb ra rd : Reg} (himm : imm ≤ maxRounds) (hop : op < 8)
include himm hop

theorem rdField_packWord : rdField (packWord imm rm rb ra rd op) = rd := by
  obtain ⟨hrd, _⟩ := packWord_fields imm rm rb ra rd op himm (hop.trans (by decide))
  exact hrd

theorem raField_packWord : raField (packWord imm rm rb ra rd op) = ra := by
  obtain ⟨_, hra, _⟩ := packWord_fields imm rm rb ra rd op himm (hop.trans (by decide))
  exact hra

theorem rbField_packWord : rbField (packWord imm rm rb ra rd op) = rb := by
  obtain ⟨_, _, hrb, _⟩ := packWord_fields imm rm rb ra rd op himm (hop.trans (by decide))
  exact hrb

theorem rmField_packWord : rmField (packWord imm rm rb ra rd op) = rm := by
  obtain ⟨_, _, _, hrm, _⟩ := packWord_fields imm rm rb ra rd op himm (hop.trans (by decide))
  exact hrm

theorem immField_packWord : immField (packWord imm rm rb ra rd op) = imm := by
  obtain ⟨_, _, _, _, hi, _⟩ := packWord_fields imm rm rb ra rd op himm (hop.trans (by decide))
  exact hi

theorem opField_packWord : opField (packWord imm rm rb ra rd op) = BitVec.ofNat 8 op := by
  obtain ⟨_, _, _, _, _, ho⟩ := packWord_fields imm rm rb ra rd op himm (hop.trans (by decide))
  exact ho

end

/-- The row of the table for a command (R78). -/
def tableRow : Instr → Row
  | .modred _ _ _ => rows[0]
  | .modmul _ _ _ _ => rows[1]
  | .modexp _ _ _ _ => rows[2]
  | .modinv _ _ _ => rows[3]
  | .fermat2 _ _ => rows[4]
  | .mrround _ _ _ => rows[5]
  | .primetest _ _ _ => rows[6]

section
variable (i : Instr)

theorem tableRow_mem : tableRow i ∈ rows := by
  cases i <;> exact List.getElem_mem _

theorem encode_and_opcode : encode i &&& 0x008888FF#32 = Laws.opcode i := by
  cases i <;> exact Laws.packWord_and_opcode _ _ _ _ _ _ (by decide)

theorem opField_encode : opField (encode i) = opField (tableRow i).matchBits := by
  rw [opField_of_masked (encode_and_opcode i) (by decide)]
  cases i <;> rfl

theorem reservedBitSet_encode : reservedBitSet (encode i) = false := by
  have hval : Laws.opcode i &&& reservedMask = 0 := by cases i <;> simp [Laws.opcode, reservedMask]
  exact bne_eq_false_iff_eq.2 (and_eq_zero_of_masked (encode_and_opcode i) (by decide) hval)

end

section
variable {i : Instr} (h : i.wf = true)
include h

theorem unusedFieldSet_encode : unusedFieldSet (encode i) = false := by
  rw [Bool.eq_false_iff, ne_eq, unusedFieldSet_iff]
  cases i with
  | primetest rd ra rounds =>
    have hr : rounds ≤ maxRounds := of_decide_eq_true h
    simp [encode, opField_packWord, rbField_packWord, rmField_packWord, hr]
  | _ => simp [encode, opField_packWord, rbField_packWord, rmField_packWord, immField_packWord]

theorem make_encode : (tableRow i).make (encode i) = i := by
  cases i with
  | primetest rd ra rounds =>
    have hr : rounds ≤ maxRounds := of_decide_eq_true h
    simp [tableRow, rows, encode, rdField_packWord, raField_packWord, immField_packWord, hr]
  | _ => simp [tableRow, rows, encode, rdField_packWord, raField_packWord, rbField_packWord, rmField_packWord]

theorem decode_encode : decode (encode i) = .ok i := by
  have ha : (tableRow i).accepts (encode i) = true := (Row.accepts_iff (tableRow_mem i)).2
    ⟨opField_encode i, reservedBitSet_encode i, unusedFieldSet_encode h⟩
  rw [decode_of_accepts (tableRow_mem i) ha, make_encode h]

end

/-! ## The assembler (R80) -/

theorem asmReg_val (r : Reg) : asmReg r.val = some r := dif_pos r.isLt

theorem wf_of_assemble {m : AsmMnemonic} {ops : List AsmOperand} {i : Instr} (h : assemble m ops = some i) :
    i.wf = true := by
  cases i with
  | primetest rd ra rounds =>
    unfold assemble at h
    split at h
    case h_7 =>
      simp only [Option.ite_none_right_eq_some, Option.bind_eq_bind, Option.bind_eq_some_iff, Option.pure_def,
        Option.some_inj, Instr.primetest.injEq] at h
      obtain ⟨hle, _, _, _, _, _, _, rfl⟩ := h
      exact decide_eq_true hle
    case h_9 =>
      simp only [Option.bind_eq_bind, Option.bind_eq_some_iff, Option.pure_def, Option.some_inj,
        Instr.primetest.injEq] at h
      obtain ⟨_, _, _, _, _, _, rfl⟩ := h
      rfl
    all_goals simp [Option.bind_eq_some_iff] at h
  | _ => rfl

end Sys2Proof

namespace Sys2Proof.Machine

/-! ## Refusal of an illegal word (R141) -/

theorem State.submit_illegal {s : State} {w : Word} {e : Illegal} (hb : s.busy = false) (he : decode w = .error e) :
    s.submit w = .next (s.refuse w) := by
  simp [State.submit, hb, he]

/-! ## LDV (R83) -/

/-- `W32` reaches the block as an admitted write when its offset is aligned (R57, R82). -/
theorem hostWrites_of_hostW32 {s : State} {off : Offset} {w : Word} {rest : List Input} (hr : s.rstN = true)
    (hi : s.inputs = hostW32 off w :: rest) (ha : off.toNat % 4 = 0) : s.hostWrites off w :=
  ⟨hr, _, rest, hi, (Transaction.admitted_iff _).2 ⟨rfl, ha, fun _ => rfl⟩, rfl, rfl, rfl⟩

/-- One write of LDV to an idle block stores its limb (R56, R83). -/
theorem step_ldv_write {s : State} {i : Reg} {k : Nat} {w : Word} {rest : List Input} (hr : s.rstN = true)
    (hb : s.busy = false) (hi : s.inputs = hostW32 (windowOffset i k) w :: rest) (hk : k < s.build.limbs)
    (h128 : k < 128) : step s = .next (((s.withInputs rest).writeLimb i k w).reply ⟨.ok, none⟩) := by
  have halign : (windowOffset i k).toNat % 4 = 0 := by
    rw [windowOffset_toNat i k h128]
    omega
  rw [← State.atTurn_host hi]
  apply step_hostWrites_next (hostWrites_of_hostW32 hr hi halign)
  rw [State.memWrite, targetOf_windowOffset i ⟨k, h128⟩]
  exact congrArg _ (State.windowWrite_stored (s := s.atTurn) w i hb hk)

theorem core_run_succ_last {n : Nat} {s t u : State} (hrun : Sys2Proof.core.run n s = .next t) (h : step t = .next u) :
    Sys2Proof.core.run (n + 1) s = .next u := by
  induction n generalizing s with
  | zero =>
    cases hrun
    rw [core_run_succ 0 h]
    rfl
  | succ n ih =>
    cases hs : step s with
    | next v =>
      rw [core_run_succ n hs] at hrun
      rw [core_run_succ (n + 1) hs, ih hrun]
    | fault f =>
      have hs' : Sys2Proof.core.step s = .fault f := hs
      simp [Host.Core.run, hs'] at hrun
    | refused r =>
      have hs' : Sys2Proof.core.step s = .refused r := hs
      simp [Host.Core.run, hs'] at hrun

/-- What the first `n` writes of `LDV vi, value` leave, `rest` still to come. -/
structure LimbsLoaded (s t : State) (i : Reg) (value n : Nat) (rest : List Input) : Prop where
  build : t.build = s.build
  rstN : t.rstN = true
  idle : t.busy = false
  inputs : t.inputs = rest
  written : t.reg i = (List.range n).foldl (fun x k => setLimb x k (limbOf value k)) (s.reg i)
  inRange : t.reg i < 2 ^ s.build.width
  marked : ∀ k, k < n → t.initBit i k = true
  others : ∀ r, r ≠ i → SameReg s t r

theorem LimbsLoaded.zero {s : State} {i : Reg} {value : Nat} (hr : s.rstN = true) (hb : s.busy = false)
    (hlt : s.reg i < 2 ^ s.build.width) : LimbsLoaded s s i value 0 s.inputs where
  build := rfl
  rstN := hr
  idle := hb
  inputs := rfl
  written := rfl
  inRange := hlt
  marked := fun k hk => absurd hk k.not_lt_zero
  others := fun r _ => SameReg.refl s r

theorem LimbsLoaded.succ {s t : State} {i : Reg} {value n : Nat} {rest : List Input} (hn : n < s.build.limbs)
    (h128 : n < 128) (h : LimbsLoaded s t i value n (hostW32 (windowOffset i n) (limbOf value n) :: rest)) :
    ∃ u, step t = .next u ∧ LimbsLoaded s u i value (n + 1) rest := by
  have hn' : n < t.build.limbs := by rwa [h.build]
  refine ⟨_, step_ldv_write h.rstN h.idle h.inputs hn' h128, ?_⟩
  have hreg : ∀ r, (((t.withInputs rest).writeLimb i n (limbOf value n)).reply ⟨.ok, none⟩).reg r
      = if r = i then setLimb (t.reg i) n (limbOf value n) else t.reg r :=
    fun r => State.writeLimb_reg (t.withInputs rest) i r n _
  have hbit : ∀ k, (((t.withInputs rest).writeLimb i n (limbOf value n)).reply ⟨.ok, none⟩).initBit i k
      = (t.initBit i k || decide (k = n)) := by
    intro k
    have hw := State.writeLimb_initBit (t.withInputs rest) i i n k (limbOf value n) h128
    rwa [decide_eq_true rfl, Bool.true_and] at hw
  constructor
  case build => exact h.build
  case rstN => exact h.rstN
  case idle => exact h.idle
  case inputs => rfl
  case written => rw [hreg, if_pos rfl, h.written, List.range_succ, List.foldl_append]; rfl
  case inRange => rw [hreg, if_pos rfl]; exact setLimb_lt _ _ _ _ h.inRange hn
  case marked =>
    intro k hk
    rw [hbit]
    rcases Nat.lt_succ_iff_lt_or_eq.1 hk with hlt | rfl
    · rw [h.marked k hlt, Bool.true_or]
    · rw [decide_eq_true rfl, Bool.or_true]
  case others =>
    intro r hr
    obtain ⟨hv, hi⟩ := h.others r hr
    refine ⟨by rw [hreg, if_neg hr, hv], ?_⟩
    rw [← hi, State.reply_init, State.writeLimb_init, get_set_reg, if_neg hr, State.withInputs_init]

/-- The first `n` writes of LDV, as a run. -/
theorem run_ldv_writes {s : State} {i : Reg} {value n : Nat} {rest : List Input} (hr : s.rstN = true)
    (hb : s.busy = false) (hlt : s.reg i < 2 ^ s.build.width) (hn : n ≤ s.build.limbs) (h128 : n ≤ 128)
    (hi : s.inputs = (List.range n).map (fun k => hostW32 (windowOffset i k) (limbOf value k)) ++ rest) :
    ∃ t, Sys2Proof.core.run n s = .next t ∧ LimbsLoaded s t i value n rest := by
  induction n generalizing rest with
  | zero =>
    have hrest : s.inputs = rest := by simpa using hi
    exact ⟨s, rfl, hrest ▸ LimbsLoaded.zero hr hb hlt⟩
  | succ n ih =>
    rw [List.range_succ, List.map_append, List.append_assoc] at hi
    obtain ⟨t, hrun, ht⟩ := ih (by omega) (by omega) hi
    obtain ⟨u, hstep, hu⟩ := ht.succ (by omega) (by omega)
    exact ⟨u, core_run_succ_last hrun hstep, hu⟩

end Sys2Proof.Machine

/-! ## The statements -/

namespace Sys2Proof
open Machine

/-- Settles O1: the row of a command accepts its encoding, whose fields are the command's operands. -/
theorem decodeOfEncodeIsIdentity : Obligations.DecodeOfEncodeIsIdentity := fun _ h => decode_encode h

/-- Settles O2: a word a row accepts is packed from its own fields, those unused being 0. -/
theorem encodeOfDecodeIsIdentity : Obligations.EncodeOfDecodeIsIdentity := fun _ _ h =>
  ⟨encode_of_decode h, wf_of_decode h⟩

/-- Settles O3, from the three grounds of R77 and the refusal of an illegal word. -/
theorem illegalWordsRefused : Obligations.IllegalWordsRefused := by
  refine ⟨fun w => ?_, ⟨.opcode, rfl⟩, fun s w e hw hb he => ?_⟩
  · rw [decode_error_iff_grounds, opcodeIllegal_iff, reservedBitSet_iff, unusedFieldSet_iff]
    simp only [or_assoc]
  · have hs : s.atTurn.memWrite 0x014 w = .next (s.atTurn.refuse w) := by
      rw [State.memWrite_cmd]
      exact State.submit_illegal hb he
    exact ⟨_, step_hostWrites_next hw hs, rfl, rfl, hb⟩

/-- Settles O4: a word that a row accepts is accepted by no other row, so the first match is that row. -/
theorem decodeFollowsTable : Obligations.DecodeFollowsTable := by
  have hrow : ∀ (n : Fin 7) (w : Word), w &&& rows[n].maskBits = rows[n].matchBits → decode w = .ok (rows[n].make w) :=
    fun n w h => decode_of_accepts (List.getElem_mem _) (Row.accepts_iff_masked.2 h)
  refine ⟨fun w => ⟨hrow 0 w, hrow 1 w, hrow 2 w, hrow 3 w, hrow 4 w, hrow 5 w, hrow 6 w, decode_error_iff.2, ?_⟩,
    by decide, fun w => ⟨opField_toNat w, rdField_val w, raField_val w, rbField_val w, rmField_val w, immField_eq w⟩⟩
  intro row hmem row' hmem' ha ha'
  exact ⟨congrArg Row.mnemonic (Row.eq_of_accepts hmem hmem' ha ha'), Row.opField_of_accepts hmem ha⟩

/-- Settles O7: what the assembler accepts is well formed. -/
theorem assembledCommandsEncode : Obligations.AssembledCommandsEncode := fun _ _ _ h => decode_encode (wf_of_assemble h)

/-- Settles O40: each write loads one limb (`run_ldv_writes`), and the limbs of a value below `2^W` make the value. -/
theorem ldvLoadsInteger : Obligations.LdvLoadsInteger := by
  intro s i value rest hr hb hlegal hlt hvalue hi
  obtain ⟨t, hrun, ht⟩ := run_ldv_writes hr hb hlt le_rfl (Build.limbs_le _ hlegal).2 hi
  have hreg : t.reg i = value := by
    have hmod : t.reg i % 2 ^ s.build.width = value % 2 ^ s.build.width := by
      rw [ht.written]
      exact foldl_setLimb_mod _ _ _
    rwa [Nat.mod_eq_of_lt ht.inRange, Nat.mod_eq_of_lt hvalue] at hmod
  have hloaded : t.loaded i = true := (t.loaded_iff i).2 fun k hk => ht.marked k (ht.build ▸ hk)
  exact ⟨t, hrun, hreg, hloaded, ht.inputs, ht.others⟩

/-- Settles O5: both functions are evaluated on the seven words. -/
theorem encodingExamples : Obligations.EncodingExamples := by
  unfold Obligations.EncodingExamples
  decide

/-- Settles O6: a register written by its number is read as itself. -/
theorem pseudoInstructionsExpand : Obligations.PseudoInstructionsExpand := fun a b c d => by
  simp [assemble, asmReg_val]

end Sys2Proof
end

section
/-! PROOFS. The statements about MODRED and MODMUL (40_modred_modmul.md). The words of a command are those its row of
R78 accepts; a command whose one error is BAD_MODULUS ends by `raise` or by `complete_ok`. The first two parts serve
the commands of the later files as well. -/

namespace Sys2Proof

/-! ## The words of a command -/

section
variable {w : Word}

/-- A word that decodes to a command matches that command's row of the table (R76). -/
theorem masked_of_decode {i : Instr} (h : decode w = .ok i) : w &&& (tableRow i).maskBits = (tableRow i).matchBits := by
  obtain rfl := encode_of_decode h
  exact Row.accepts_iff_masked.1 ((Row.accepts_iff (tableRow_mem i)).2
    ⟨opField_encode i, reservedBitSet_encode i, unusedFieldSet_encode (wf_of_decode h)⟩)

/-- A word with a row's opcode that does not match the row is illegal: no other row has that opcode (R77, R78). -/
theorem decode_error_of_not_masked {row : Row} (h : row ∈ rows) (hop : opField w = opField row.matchBits)
    (hne : w &&& row.maskBits ≠ row.matchBits) : ∃ e, decode w = .error e := by
  rw [decode_error_iff]
  intro row' h'
  by_contra ha
  have ha' : row'.accepts w = true := by simpa using ha
  have hrow : row' = row := Row.eq_of_opcode h' h ((Row.opField_of_accepts h' ha').symm.trans hop)
  exact hne (Row.accepts_iff_masked.1 (hrow ▸ ha'))

theorem modred_masked_iff :
    w &&& 0xFF8F88FF#32 = 0x00000001#32 ↔ ∃ rd ra rm, decode w = .ok (.modred rd ra rm) := by
  constructor
  · exact fun h => ⟨_, _, _, decode_of_accepts (row := rows[0]) (List.getElem_mem _) (Row.accepts_iff_masked.2 h)⟩
  · rintro ⟨rd, ra, rm, h⟩
    exact masked_of_decode h

theorem modmul_masked_iff :
    w &&& 0xFF8888FF#32 = 0x00000002#32 ↔ ∃ rd ra rb rm, decode w = .ok (.modmul rd ra rb rm) := by
  constructor
  · exact fun h => ⟨_, _, _, _, decode_of_accepts (row := rows[1]) (List.getElem_mem _) (Row.accepts_iff_masked.2 h)⟩
  · rintro ⟨rd, ra, rb, rm, h⟩
    exact masked_of_decode h

end

end Sys2Proof

namespace Sys2Proof.Machine

/-! ## A command whose one error is BAD_MODULUS -/

section
variable {s : State}

/-- A command that raises BAD_MODULUS when its modulus is 0 and else completes with `x` answers a next state that is a
failed command or a completed one. -/
theorem exec_ends_of_modulus {i : Instr} {rd : Reg} {m x : Nat}
    (h : exec i s = if m = 0 then .next (s.raise .badModulus) else .next (s.completeOk rd x)) :
    ∃ t, exec i s = .next t ∧ (m = 0 → Failed s t .badModulus) ∧ (m ≠ 0 → Completed s t rd x ∧ t.pred = s.pred) := by
  by_cases hm : m = 0
  · rw [if_pos hm] at h
    exact ⟨_, h, fun _ => s.raise_failed .badModulus, fun hne => absurd hm hne⟩
  · rw [if_neg hm] at h
    exact ⟨_, h, fun h0 => absurd h0 hm, fun _ => s.completeOk_completed rd x⟩

theorem exec_modred (rd ra rm : Reg) :
    exec (.modred rd ra rm) s =
      if s.operandM rm = 0 then .next (s.raise .badModulus)
      else .next (s.completeOk rd (s.operandA ra % s.operandM rm)) := rfl

theorem exec_modmul (rd ra rb rm : Reg) :
    exec (.modmul rd ra rb rm) s =
      if s.operandM rm = 0 then .next (s.raise .badModulus)
      else .next (s.completeOk rd (s.operandA ra * s.operandB rb % s.operandM rm)) := rfl

end

end Sys2Proof.Machine

/-! ## The statements -/

namespace Sys2Proof
open Machine

/-- Settles O9: the words are those of the first row, and the operands are read from the state before the write. -/
theorem modredReduces : Obligations.ModredReduces :=
  ⟨fun _ => modred_masked_iff, fun _ => decode_error_of_not_masked (row := rows[0]) (List.getElem_mem _),
    fun rd ra rm _ => exec_ends_of_modulus (exec_modred rd ra rm)⟩

/-- Settles O10: the words are those of the second row, and the product of the operands is one of natural numbers. -/
theorem modmulMultiplies : Obligations.ModmulMultiplies :=
  ⟨fun _ => modmul_masked_iff, fun _ => decode_error_of_not_masked (row := rows[1]) (List.getElem_mem _),
    fun rd ra rb rm _ => exec_ends_of_modulus (exec_modmul rd ra rb rm)⟩

end Sys2Proof
end

section
/-! PROOFS. The statements about MODEXP (41_modexp.md): its words, its result and its two algorithms; and of every
command, that its end is decided by the operands it reads and the witnesses drawn. -/

namespace Sys2Proof

/-! ## The words of MODEXP (R78) -/

theorem modexp_masked_iff {w : Word} :
    w &&& 0xFF8888FF#32 = 0x00000003#32 ↔ ∃ rd ra rb rm, decode w = .ok (.modexp rd ra rb rm) := by
  constructor
  · exact fun h => ⟨_, _, _, _, decode_of_accepts (row := rows[2]) (List.getElem_mem _) (Row.accepts_iff_masked.2 h)⟩
  · rintro ⟨rd, ra, rb, rm, h⟩
    exact masked_of_decode h

end Sys2Proof

namespace Sys2Proof.Machine

/-! ## The power (R100, R102) -/

theorem exec_modexp (rd ra rb rm : Reg) (s : State) :
    exec (.modexp rd ra rb rm) s =
      if s.operandM rm = 0 then .next (s.raise .badModulus)
      else .next (s.completeOk rd (s.operandA ra ^ s.operandB rb % s.operandM rm)) := by
  rw [← modexp_eq]; rfl

theorem powRec_eq {b e m : Nat} (h : e ≠ 0 ∨ 1 % m = 1) : powRec b e m = b ^ e % m := powRecLoop_eq b m e e le_rfl h

/-! ## The snapshots (R41) -/

section
variable {s : State} {f : InFlight} (hf : s.inflight = some f) (r : Reg)
include hf

theorem State.operandB_of_inflight : s.operandB r = f.b := by simp only [State.operandB, hf]

theorem State.operandM_of_inflight : s.operandM r = f.m := by simp only [State.operandM, hf]

end

/-! ## Two runs of one command (R105) -/

/-- A command ends in the same way, with the same error or the same value, from any two states with the same operands
and the same witnesses: `exec_cases` for the two at once. -/
theorem exec_cases_of_same_operands {s s' : State} (ha : s.operandA = s'.operandA) (hb : s.operandB = s'.operandB)
    (hm : s.operandM = s'.operandM) (hd : s.draws = s'.draws) (i : Instr) :
    (∃ e, exec i s = .next (s.raise e) ∧ exec i s' = .next (s'.raise e))
      ∨ (i.isPredicate = false ∧
          ∃ x, exec i s = .next (s.completeOk i.dest x) ∧ exec i s' = .next (s'.completeOk i.dest x))
      ∨ (∃ res, exec i s = .next (s.completePred i.dest res) ∧ exec i s' = .next (s'.completePred i.dest res))
      ∨ (exec i s = .next s ∧ exec i s' = .next s') := by
  cases i with
  | modred rd ra rm =>
    simp only [exec, execModred, ha, hm]
    split
    · exact .inl ⟨_, rfl, rfl⟩
    · exact .inr (.inl ⟨rfl, _, rfl, rfl⟩)
  | modmul rd ra rb rm =>
    simp only [exec, execModmul, ha, hb, hm]
    split
    · exact .inl ⟨_, rfl, rfl⟩
    · exact .inr (.inl ⟨rfl, _, rfl, rfl⟩)
  | modexp rd ra rb rm =>
    simp only [exec, execModexp, ha, hb, hm]
    split
    · exact .inl ⟨_, rfl, rfl⟩
    · exact .inr (.inl ⟨rfl, _, rfl, rfl⟩)
  | modinv rd ra rm =>
    simp only [exec, execModinv, ha, hm]
    split
    · exact .inl ⟨_, rfl, rfl⟩
    · split
      · exact .inl ⟨_, rfl, rfl⟩
      · exact .inr (.inl ⟨rfl, _, rfl, rfl⟩)
  | fermat2 rd ra =>
    simp only [exec, execFermat2, ha]
    split
    · exact .inl ⟨_, rfl, rfl⟩
    · exact .inr (.inr (.inl ⟨_, rfl, rfl⟩))
  | mrround rd ra rb =>
    simp only [exec, execMrround, ha, hb]
    split
    · exact .inr (.inr (.inl ⟨_, rfl, rfl⟩))
    · split
      · exact .inr (.inr (.inl ⟨_, rfl, rfl⟩))
      · exact .inl ⟨_, rfl, rfl⟩
  | primetest rd ra rounds =>
    simp only [exec, execPrimetest, ha, hd]
    split
    · exact .inr (.inr (.inl ⟨_, rfl, rfl⟩))
    · exact .inr (.inr (.inr ⟨rfl, rfl⟩))

end Sys2Proof.Machine

/-! ## The statements -/

namespace Sys2Proof
open Machine

/-- Settles O11: the words are those of the third row, and the algorithm's value is the power. -/
theorem modexpComputesPower : Obligations.ModexpComputesPower :=
  ⟨fun _ => modexp_masked_iff, fun _ => decode_error_of_not_masked (row := rows[2]) (List.getElem_mem _),
    fun rd ra rb rm s => exec_ends_of_modulus (exec_modexp rd ra rb rm s)⟩

/-- Settles O12: the loop multiplies the accumulator by the power still to come. -/
theorem iterativeExponentiationIsPower : Obligations.IterativeExponentiationIsPower := fun b e m _ => modexp_eq b e m

/-- Settles O13: both forms are the power, but that the recursion's base case is not reduced, which is seen at modulus
1 only. -/
theorem recursiveFormAgrees : Obligations.RecursiveFormAgrees := by
  refine ⟨fun b e m _ h => ?_, fun b => ⟨rfl, rfl⟩⟩
  have hbase : e ≠ 0 ∨ 1 % m = 1 := h.imp Nat.one_le_iff_ne_zero.1 Nat.mod_eq_of_lt
  rw [powRec_eq hbase, modexp_eq]

/-- Settles O27: the two runs read the same snapshots, so they end alike or both wait. -/
theorem resultDependsOnOperandsOnly : Obligations.ResultDependsOnOperandsOnly := by
  intro i s s' t t' f f' hf hf' ha hb hm hd ht ht'
  have hA : s.operandA = s'.operandA := funext fun r => by
    rw [State.operandA_of_inflight hf, State.operandA_of_inflight hf', ha]
  have hB : s.operandB = s'.operandB := funext fun r => by
    rw [State.operandB_of_inflight hf, State.operandB_of_inflight hf', hb]
  have hM : s.operandM = s'.operandM := funext fun r => by
    rw [State.operandM_of_inflight hf, State.operandM_of_inflight hf', hm]
  have hbusy : s.busy = true := s.busy_iff.2 ⟨f, hf⟩
  have hbusy' : s'.busy = true := s'.busy_iff.2 ⟨f', hf'⟩
  rcases exec_cases_of_same_operands hA hB hM hd i with ⟨e, h, h'⟩ | ⟨hnp, x, h, h'⟩ | ⟨res, h, h'⟩ | ⟨h, h'⟩ <;>
    obtain rfl := Host.Outcome.next.inj (h.symm.trans ht) <;>
    obtain rfl := Host.Outcome.next.inj (h'.symm.trans ht')
  · have herr : (s.raise e).errCode ≠ 0 := e.code_ne_zero
    exact ⟨rfl, fun _ => ⟨rfl, fun hok => absurd hok herr, fun hok => absurd hok herr⟩⟩
  · have hdest : (s.completeOk i.dest x).reg i.dest = (s'.completeOk i.dest x).reg i.dest := by
      rw [State.completeOk_reg, State.completeOk_reg, if_pos rfl, if_pos rfl]
    exact ⟨rfl, fun _ => ⟨rfl, fun _ => hdest, fun _ hp => by rw [hnp] at hp; cases hp⟩⟩
  · have hdest : (s.completePred i.dest res).reg i.dest = (s'.completePred i.dest res).reg i.dest := by
      rw [State.completePred_reg_dest, State.completePred_reg_dest]; rfl
    exact ⟨rfl, fun _ => ⟨rfl, fun _ => hdest, fun _ _ => rfl⟩⟩
  · exact ⟨hbusy.trans hbusy'.symm, fun hidle => by rw [hbusy] at hidle; cases hidle⟩

/-- Settles O28: a build of the other method holds the same operands and witnesses, and no end of a command reads the
method. -/
theorem multiplicationMethodInvisible : Obligations.MultiplicationMethodInvisible := by
  intro i s t m ht
  rcases exec_cases_of_same_operands (s := s) (s' := { s with build := { s.build with expMethod := m } }) rfl rfl rfl rfl i
    with ⟨e, h, h'⟩ | ⟨-, x, h, h'⟩ | ⟨res, h, h'⟩ | ⟨h, h'⟩ <;>
    obtain rfl := Host.Outcome.next.inj (h.symm.trans ht) <;>
    exact h'

end Sys2Proof
end

section
/-! PROOFS. The statements about the primality unit (42_primality.md): its words, FERMAT2's formula and Fermat's little
theorem, the decomposition, and what MRROUND and PRIMETEST decide, on a prime and on 9 as on every other `n`. -/

namespace Sys2Proof

/-! ## The words of the predicate commands (R78) -/

section
variable {w : Word}

theorem decode_of_masked {row : Row} (h : row ∈ rows) (hw : w &&& row.maskBits = row.matchBits) :
    decode w = .ok (row.make w) := decode_of_accepts h (Row.accepts_iff_masked.2 hw)

theorem fermat2_masked_iff :
    w &&& 0xFFFF88FF#32 = 0x00000005#32 ↔ ∃ rd ra, decode w = .ok (.fermat2 rd ra) :=
  ⟨fun h => ⟨_, _, decode_of_masked (row := rows[4]) (List.getElem_mem _) h⟩, fun ⟨_, _, h⟩ => masked_of_decode h⟩

theorem mrround_masked_iff :
    w &&& 0xFFF888FF#32 = 0x00000006#32 ↔ ∃ rd ra rb, decode w = .ok (.mrround rd ra rb) :=
  ⟨fun h => ⟨_, _, _, decode_of_masked (row := rows[5]) (List.getElem_mem _) h⟩, fun ⟨_, _, _, h⟩ => masked_of_decode h⟩

theorem primetest_masked_iff :
    w &&& 0x00FF88FF#32 = 0x00000007#32 ↔ ∃ rd ra rounds, decode w = .ok (.primetest rd ra rounds) :=
  ⟨fun h => ⟨_, _, _, decode_of_masked (row := rows[6]) (List.getElem_mem _) h⟩, fun ⟨_, _, _, h⟩ => masked_of_decode h⟩

end

end Sys2Proof

namespace Sys2Proof.Machine

/-! ## Powers modulo a prime (R113, R120) -/

/-- Where 1 and -1 are the only square roots of 1, repeated squaring reaches 1 from 1 or by way of -1. -/
theorem eq_one_or_exists_pow_eq_neg_one {R : Type*} [CommRing R] [NoZeroDivisors R] {x : R} {r : Nat}
    (h : x ^ 2 ^ r = 1) : x = 1 ∨ ∃ j, j < r ∧ x ^ 2 ^ j = -1 := by
  induction r with
  | zero => exact Or.inl (by simpa using h)
  | succ r ih =>
    rw [pow_succ, pow_mul, sq_eq_one_iff] at h
    rcases h with h | h
    · rcases ih h with h1 | ⟨j, hj, hx⟩
      · exact Or.inl h1
      · exact Or.inr ⟨j, by omega, hx⟩
    · exact Or.inr ⟨r, by omega, h⟩

section
variable {n a k : Nat}

theorem pow_mod_eq_one (hn : 2 ≤ n) (h : (a : ZMod n) ^ k = 1) : a ^ k % n = 1 := by
  have hcast : ((a ^ k : Nat) : ZMod n) = (1 : Nat) := by simpa using h
  rw [(ZMod.natCast_eq_natCast_iff' _ _ _).1 hcast, Nat.mod_eq_of_lt hn]

theorem pow_mod_eq_pred (hn : 1 ≤ n) (h : (a : ZMod n) ^ k = -1) : a ^ k % n = n - 1 := by
  have hcast : ((a ^ k : Nat) : ZMod n) = (n - 1 : Nat) := by simpa [hn] using h
  rw [(ZMod.natCast_eq_natCast_iff' _ _ _).1 hcast, Nat.mod_eq_of_lt (by omega)]

/-- Fermat's little theorem for a base in `[1, n - 1]`. -/
theorem cast_pow_pred_eq_one (hp : n.Prime) (h0 : 0 < a) (hlt : a < n) : (a : ZMod n) ^ (n - 1) = 1 := by
  have := Fact.mk hp
  apply ZMod.pow_card_sub_one_eq_one
  rw [Ne, ZMod.natCast_eq_zero_iff]
  exact Nat.not_dvd_of_pos_of_lt h0 hlt

/-- The Miller-Rabin theorem (R120): a prime passes a round for every witness in range. -/
theorem strongPass_of_prime (hp : n.Prime) (hn : RoundsRun n) (h2 : 2 ≤ a) (ha : a ≤ n - 2) : StrongPass n a := by
  have := Fact.mk hp
  obtain ⟨hodd, h5⟩ := hn
  obtain ⟨hdec, hs, -⟩ := decompose_spec n hodd (by omega)
  have hfermat : ((a : ZMod n) ^ (decompose n).2) ^ 2 ^ (decompose n).1 = 1 := by
    rw [← pow_mul, Nat.mul_comm, ← hdec]
    exact cast_pow_pred_eq_one hp (by omega) (by omega)
  refine ⟨_, _, hdec, hs, ?_⟩
  rcases eq_one_or_exists_pow_eq_neg_one hfermat with h1 | ⟨j, hj, hneg⟩
  · exact Or.inl (pow_mod_eq_one (by omega) h1)
  · rw [← pow_mul, Nat.mul_comm] at hneg
    exact Or.inr ⟨j, hj, pow_mod_eq_pred (by omega) hneg⟩

theorem roundsRun_of_prime (hp : n.Prime) (h5 : 5 ≤ n) : RoundsRun n :=
  ⟨hp.mod_two_eq_one_iff_ne_two.2 (by omega), h5⟩

/-- A power of 2 with a positive exponent stays even modulo an even number, so FERMAT2 fails every even `p` (R112). -/
theorem two_pow_pred_mod_ne_one (h0 : n ≠ 0) (heven : n % 2 = 0) : 2 ^ (n - 1) % n ≠ 1 := by
  intro h
  have hdvd : 2 ∣ 2 ^ (n - 1) := dvd_pow_self 2 (by omega)
  have hmod : 2 ^ (n - 1) % n % 2 = 2 ^ (n - 1) % 2 := Nat.mod_mod_of_dvd _ (Nat.dvd_of_mod_eq_zero heven)
  omega

/-- 9 fails a round for every witness of `[2, 7]` (R119), by running the six rounds. -/
theorem not_strongPass_nine (h2 : 2 ≤ a) (h7 : a ≤ 7) : ¬ StrongPass 9 a := by
  rw [← mrRound_decompose 9 a ⟨rfl, by decide⟩]
  interval_cases a <;> decide

end

/-! ## The completion of a predicate command -/

/-- A predicate command whose result decides `P` completes with 1 if `P` holds and with 0 if not, in `V[rd]` and PRED. -/
theorem State.completePred_decides (s : State) (rd : Reg) {res : Bool} {P : Prop} (h : res = true ↔ P) :
    (P → Completed s (s.completePred rd res) rd 1 ∧ (s.completePred rd res).pred = true)
      ∧ (¬ P → Completed s (s.completePred rd res) rd 0 ∧ (s.completePred rd res).pred = false) := by
  cases res with
  | true => exact ⟨fun _ => s.completePred_completed rd true, fun hn => absurd (h.1 rfl) hn⟩
  | false => exact ⟨fun hp => absurd (h.2 hp) Bool.false_ne_true, fun _ => s.completePred_completed rd false⟩

/-! ## FERMAT2 (R112) -/

theorem exec_fermat2 (rd ra : Reg) (s : State) :
    exec (.fermat2 rd ra) s =
      if s.operandA ra = 0 then .next (s.raise .badModulus)
      else .next (s.completePred rd (decide (2 ^ (s.operandA ra - 1) % s.operandA ra = 1))) := by
  rw [← modexp_eq]; rfl

/-! ## MRROUND (R116) -/

/-- MRROUND answers from the small and even `n`, refuses the witness, or runs one round. -/
theorem exec_mrround_cases (rd ra rb : Reg) (s : State) :
    (¬ RoundsRun (s.operandA ra) ∧ exec (.mrround rd ra rb) s = .next (s.completePred rd (SmallAnswer (s.operandA ra))))
      ∨ (RoundsRun (s.operandA ra) ∧
          ((¬ (2 ≤ s.operandB rb ∧ s.operandB rb ≤ s.operandA ra - 2)
              ∧ exec (.mrround rd ra rb) s = .next (s.raise .badOperand))
            ∨ ((2 ≤ s.operandB rb ∧ s.operandB rb ≤ s.operandA ra - 2)
              ∧ ∃ res, (res = true ↔ StrongPass (s.operandA ra) (s.operandB rb))
                ∧ exec (.mrround rd ra rb) s = .next (s.completePred rd res)))) := by
  by_cases hn : RoundsRun (s.operandA ra)
  · refine Or.inr ⟨hn, ?_⟩
    have hpre := (precheck_none_iff _).2 hn
    by_cases hw : 2 ≤ s.operandB rb ∧ s.operandB rb ≤ s.operandA ra - 2
    · exact Or.inr ⟨hw, _, mrRound_decompose _ _ hn, by simp [exec, execMrround, hpre, witnessInRange, hw]⟩
    · exact Or.inl ⟨hw, by simp [exec, execMrround, hpre, witnessInRange, hw]⟩
  · exact Or.inl ⟨hn, by simp only [exec, execMrround, precheck_some _ hn]⟩

/-! ## PRIMETEST (R119) -/

section
variable {n rounds : Nat} {draws : List Nat}

theorem primetestResult_of_not_roundsRun (h : ¬ RoundsRun n) :
    primetestResult n rounds draws = some (SmallAnswer n) := by
  simp only [primetestResult, precheck_some n h]

/-- On an `n` that runs rounds, the result is decided by the first `rounds` of the witnesses drawn. -/
theorem primetestResult_of_roundsRun (h : RoundsRun n) :
    primetestResult n rounds draws =
      if (draws.take rounds).all (fun a => mrRound n (decompose n).1 (decompose n).2 a) then
        if rounds ≤ draws.length then some true else none
      else some false := by
  simp only [primetestResult, (precheck_none_iff n).2 h, testRounds_spec]

theorem all_mrRound_iff (h : RoundsRun n) :
    draws.all (fun a => mrRound n (decompose n).1 (decompose n).2 a) = true ↔ ∀ a ∈ draws, StrongPass n a := by
  simp only [List.all_eq_true, mrRound_decompose n _ h]

theorem primetestResult_eq_false (h : RoundsRun n) (hfail : ∃ a ∈ draws.take rounds, ¬ StrongPass n a) :
    primetestResult n rounds draws = some false := by
  rw [primetestResult_of_roundsRun h, if_neg]
  rw [all_mrRound_iff h]
  push Not
  exact hfail

theorem primetestResult_of_pass (h : RoundsRun n) (hpass : ∀ a ∈ draws.take rounds, StrongPass n a) :
    primetestResult n rounds draws = if rounds ≤ draws.length then some true else none := by
  rw [primetestResult_of_roundsRun h, if_pos ((all_mrRound_iff h).2 hpass)]

end

section
variable {s : State} {ra : Reg} {rounds : Nat}

theorem exec_primetest_of_some (rd : Reg) {res : Bool} (h : primetestResult (s.operandA ra) rounds s.draws = some res) :
    exec (.primetest rd ra rounds) s = .next (s.completePred rd res) := by
  simp only [exec, execPrimetest, h]

theorem exec_primetest_of_none (rd : Reg) (h : primetestResult (s.operandA ra) rounds s.draws = none) :
    exec (.primetest rd ra rounds) s = .next s := by
  simp only [exec, execPrimetest, h]

/-- A drawn witness that fails ends the test with 0. -/
theorem exec_primetest_fails (rd : Reg) (hn : RoundsRun (s.operandA ra))
    (hfail : ∃ a ∈ s.draws.take rounds, ¬ StrongPass (s.operandA ra) a) :
    ∃ t, exec (.primetest rd ra rounds) s = .next t ∧ Completed s t rd 0 ∧ t.pred = false :=
  ⟨_, exec_primetest_of_some rd (primetestResult_eq_false hn hfail), s.completePred_completed rd false⟩

/-- While every drawn witness passes, the test ends with 1 or waits for the next witness. -/
theorem exec_primetest_passes (rd : Reg) (hn : RoundsRun (s.operandA ra))
    (hpass : ∀ a ∈ s.draws.take rounds, StrongPass (s.operandA ra) a) :
    ∃ t, exec (.primetest rd ra rounds) s = .next t
      ∧ (rounds ≤ s.draws.length → Completed s t rd 1 ∧ t.pred = true) ∧ (s.draws.length < rounds → t = s) := by
  have hres := primetestResult_of_pass hn hpass
  by_cases hlen : rounds ≤ s.draws.length
  · rw [if_pos hlen] at hres
    exact ⟨_, exec_primetest_of_some rd hres, fun _ => s.completePred_completed rd true, fun hlt => by omega⟩
  · rw [if_neg hlen] at hres
    exact ⟨_, exec_primetest_of_none rd hres, fun hle => absurd hle hlen, fun _ => rfl⟩

end

/-- `ent_req` is 0 once the in-flight PRIMETEST has its result (R26). -/
theorem State.entReq_false_of_result {s : State} {f : InFlight} {rd ra : Reg} {rounds : Nat} {res : Bool}
    (hf : s.inflight = some f) (hd : decode f.word = .ok (.primetest rd ra rounds))
    (hres : primetestResult f.a rounds s.draws = some res) : s.entReq = false := by
  simp [State.entReq, hf, hd, hres]

end Sys2Proof.Machine

/-! ## The statements -/

namespace Sys2Proof
open Machine

/-- Settles O16: the words are those of the fifth row, and the algorithm's value is the power. -/
theorem fermat2AppliesFormula : Obligations.Fermat2AppliesFormula := by
  refine ⟨fun _ => fermat2_masked_iff, fun _ => decode_error_of_not_masked (row := rows[4]) (List.getElem_mem _),
    fun rd ra s => ?_⟩
  rw [exec_fermat2]
  by_cases h0 : s.operandA ra = 0
  · rw [if_pos h0]
    exact ⟨_, rfl, fun _ => s.raise_failed .badModulus, fun hne => absurd h0 hne, fun hne => absurd h0 hne⟩
  · rw [if_neg h0]
    obtain ⟨hone, hzero⟩ :=
      s.completePred_decides rd (decide_eq_true_iff (p := 2 ^ (s.operandA ra - 1) % s.operandA ra = 1))
    exact ⟨_, rfl, fun h => absurd h h0, fun _ => hone, fun _ => hzero⟩

/-- Settles O17, by Fermat's little theorem and the parity of the powers of 2. -/
theorem fermat2PassesPrimes : Obligations.Fermat2PassesPrimes := by
  intro rd ra s h0
  obtain ⟨-, -, hexec⟩ := fermat2AppliesFormula
  obtain ⟨t, ht, -, hone, hzero⟩ := hexec rd ra s
  by_cases hp : 2 ^ (s.operandA ra - 1) % s.operandA ra = 1
  · obtain ⟨⟨hreg, -, -, ⟨-, -, herr, -⟩, -⟩, -⟩ := hone h0 hp
    exact ⟨t, ht, herr, fun _ _ => hreg, fun heven => absurd hp (two_pow_pred_mod_ne_one h0 heven)⟩
  · obtain ⟨⟨hreg, -, -, ⟨-, -, herr, -⟩, -⟩, -⟩ := hzero h0 hp
    exact ⟨t, ht, herr,
      fun hprime h3 => absurd (pow_mod_eq_one (by omega) (cast_pow_pred_eq_one hprime (by decide) h3)) hp,
      fun _ => hreg⟩

/-- Settles O18: the halving keeps the product and ends odd, and the power of 2 in a number is unique. -/
theorem decomposeIsUnique : Obligations.DecomposeIsUnique := by
  intro n hodd h3
  obtain ⟨hdec, hs, hr⟩ := decompose_spec n hodd h3
  refine ⟨hdec, hs, hr, fun r s hrs hs' => ?_⟩
  obtain ⟨hr', hs''⟩ := twoPow_mul_odd_unique (hrs.symm.trans hdec) hs' hs
  exact Prod.ext hr' hs''

/-- Settles O19: the three ways MRROUND ends exclude each other. -/
theorem mrroundRunsOneRound : Obligations.MrroundRunsOneRound := by
  refine ⟨fun _ => mrround_masked_iff, fun _ => decode_error_of_not_masked (row := rows[5]) (List.getElem_mem _),
    fun rd ra rb s => ?_⟩
  rcases exec_mrround_cases rd ra rb s with ⟨hn, h⟩ | ⟨hn, ⟨hw, h⟩ | ⟨hw, res, hres, h⟩⟩
  · exact ⟨_, h, fun _ => s.completePred_completed rd _, fun hr => absurd hr hn, fun hr => absurd hr hn⟩
  · exact ⟨_, h, fun hr => absurd hn hr, fun _ _ => s.raise_failed .badOperand, fun _ h2 hle => absurd ⟨h2, hle⟩ hw⟩
  · exact ⟨_, h, fun hr => absurd hn hr, fun _ hout => absurd hw hout, fun _ _ _ => s.completePred_decides rd hres⟩

/-- Settles O20: `precheck` answers, a drawn witness fails, or all drawn so far pass. -/
theorem primetestRunsRounds : Obligations.PrimetestRunsRounds := by
  refine ⟨fun _ => primetest_masked_iff, fun _ => decode_error_of_not_masked (row := rows[6]) (List.getElem_mem _),
    fun rd ra rounds s => ?_⟩
  by_cases hn : RoundsRun (s.operandA ra)
  · by_cases hpass : ∀ a ∈ s.draws.take rounds, StrongPass (s.operandA ra) a
    · obtain ⟨t, h, hone, hwait⟩ := exec_primetest_passes rd hn hpass
      exact ⟨t, h, fun hr => absurd hn hr, fun _ ⟨a, ha, hfail⟩ => absurd (hpass a ha) hfail, fun _ _ => hone,
        fun _ _ => hwait⟩
    · obtain ⟨t, h, hzero⟩ := exec_primetest_fails rd hn (by push Not at hpass; exact hpass)
      exact ⟨t, h, fun hr => absurd hn hr, fun _ _ => hzero, fun _ hp => absurd hp hpass, fun _ hp => absurd hp hpass⟩
  · exact ⟨_, exec_primetest_of_some rd (primetestResult_of_not_roundsRun hn), fun _ => s.completePred_completed rd _,
      fun hr => absurd hr hn, fun hr => absurd hr hn, fun hr => absurd hr hn⟩

/-- Settles O21: no witness is asked for, so none can fail. -/
theorem zeroRoundsPass : Obligations.ZeroRoundsPass := by
  intro rd ra s hn
  have hpass : primetestResult (s.operandA ra) 0 s.draws = some true := primetestResult_of_pass hn (by simp)
  exact ⟨⟨_, exec_primetest_of_some rd hpass, s.completePred_completed rd true⟩,
    fun f hf hd ha => State.entReq_false_of_result hf hd (ha ▸ hpass)⟩

/-- Settles O22: by the Miller-Rabin theorem no drawn witness fails. -/
theorem primePassesEveryWitness : Obligations.PrimePassesEveryWitness := by
  intro rd ra rounds s hp h5 hdraws
  have hn := roundsRun_of_prime hp h5
  refine exec_primetest_passes rd hn fun a ha => ?_
  obtain ⟨h2, hle⟩ := hdraws a (List.mem_of_mem_take ha)
  exact strongPass_of_prime hp hn h2 hle

/-- Settles O23: with no error the witness was in range, where a prime passes. -/
theorem roundResultZeroMeansComposite : Obligations.RoundResultZeroMeansComposite := by
  intro rd ra rb s t hn ht herr hpred hp
  rcases exec_mrround_cases rd ra rb s with ⟨hsmall, -⟩ | ⟨-, ⟨-, h⟩ | ⟨⟨h2, hle⟩, res, hres, h⟩⟩
  · exact hsmall hn
  · obtain rfl := Host.Outcome.next.inj (h.symm.trans ht)
    exact ErrorCode.badOperand.code_ne_zero herr
  · obtain rfl := Host.Outcome.next.inj (h.symm.trans ht)
    have hpass : res = true := hres.2 (strongPass_of_prime hp hn h2 hle)
    exact Bool.false_ne_true (hpred.symm.trans hpass)

/-- Settles O24: the first witness drawn fails. -/
theorem nineFailsEveryWitness : Obligations.NineFailsEveryWitness := by
  intro rd ra rounds s h9 hrounds hne hdraws
  have hn : RoundsRun (s.operandA ra) := by rw [h9]; exact ⟨rfl, by decide⟩
  have htake : s.draws.take rounds ≠ [] := fun h => (List.take_eq_nil_iff.1 h).elim (by omega) hne
  obtain ⟨a, ha⟩ := List.exists_mem_of_ne_nil _ htake
  obtain ⟨h2, h7⟩ := hdraws a (List.mem_of_mem_take ha)
  exact exec_primetest_fails rd hn ⟨a, ha, by rw [h9]; exact not_strongPass_nine h2 h7⟩

end Sys2Proof
end

section
/-! PROOFS. The statements about MODINV (43_modinv.md): its words, what the Euclid loop returns, and the inverse it
writes, which is the only one in range. -/

namespace Sys2Proof

/-! ## The words of MODINV (R78) -/

theorem modinv_masked_iff {w : Word} :
    w &&& 0xFF8F88FF#32 = 0x00000004#32 ↔ ∃ rd ra rm, decode w = .ok (.modinv rd ra rm) :=
  ⟨fun h => ⟨_, _, _, decode_of_masked (row := rows[3]) (List.getElem_mem _) h⟩, fun ⟨_, _, _, h⟩ => masked_of_decode h⟩

end Sys2Proof

namespace Sys2Proof.Machine

/-! ## The inverse (R130, R132) -/

/-- A number coprime to the modulus is cancelled, so it has at most one inverse in `[0, n)`. -/
theorem inverse_unique {a n x y : Nat} (hg : Nat.gcd a n = 1) (hx : x < n) (hy : y < n)
    (hax : a * x % n = 1 % n) (hay : a * y % n = 1 % n) : y = x := by
  have hmod : a * y ≡ a * x [MOD n] := hay.trans hax.symm
  have hcancel : y ≡ x [MOD n] := hmod.cancel_left_of_coprime (by rw [Nat.gcd_comm]; exact hg)
  exact hcancel.eq_of_lt_of_lt hy hx

/-- MODINV by the gcd: for `n > 0` the remainder the loop ends with is above 1 when it is not 1 (R130). -/
theorem exec_modinv (rd ra rm : Reg) (s : State) :
    exec (.modinv rd ra rm) s =
      if s.operandM rm = 0 then .next (s.raise .badModulus)
      else if Nat.gcd (s.operandA ra) (s.operandM rm) ≠ 1 then .next (s.raise .notInvertible)
      else .next (s.completeOk rd (normalise (extEuclid (s.operandA ra) (s.operandM rm)).2 (s.operandM rm))) := by
  obtain ⟨hgcd, -⟩ := extEuclid_spec (s.operandA ra) (s.operandM rm)
  by_cases hn : s.operandM rm = 0
  · simp only [exec, execModinv, if_pos hn]
  · have hpos := Nat.gcd_pos_of_pos_right (s.operandA ra) (Nat.pos_of_ne_zero hn)
    have hiff : 1 < Nat.gcd (s.operandA ra) (s.operandM rm) ↔ Nat.gcd (s.operandA ra) (s.operandM rm) ≠ 1 := by omega
    simp only [exec, execModinv, hgcd, hiff]

end Sys2Proof.Machine

/-! ## The statements -/

namespace Sys2Proof
open Machine

/-- Settles O14: the loop keeps the coefficient's congruence modulo `n` (`extEuclid_spec`). -/
theorem euclidReturnsGcdAndBezout : Obligations.EuclidReturnsGcdAndBezout := by
  intro a n _
  obtain ⟨hgcd, hbezout⟩ := extEuclid_spec a n
  exact ⟨hgcd, hbezout.symm.dvd⟩

/-- Settles O15: the words are those of the fourth row, and the normalised Bézout coefficient is the inverse. -/
theorem modinvInverts : Obligations.ModinvInverts := by
  refine ⟨fun _ => modinv_masked_iff, fun _ => decode_error_of_not_masked (row := rows[3]) (List.getElem_mem _),
    fun rd ra rm s => ?_⟩
  rw [exec_modinv]
  by_cases hn : s.operandM rm = 0
  · rw [if_pos hn]
    exact ⟨_, rfl, fun _ => s.raise_failed .badModulus, fun hne => absurd hn hne, fun hne => absurd hn hne⟩
  rw [if_neg hn]
  by_cases hg : Nat.gcd (s.operandA ra) (s.operandM rm) = 1
  · rw [if_neg (not_not_intro hg)]
    obtain ⟨hlt, hinv⟩ := normalise_inverse _ _ (Nat.pos_of_ne_zero hn) hg
    exact ⟨_, rfl, fun h0 => absurd h0 hn, fun _ hne => absurd hg hne,
      fun _ _ => ⟨_, hlt, hinv, fun _ hy => inverse_unique hg hlt hy hinv, s.completeOk_completed rd _⟩⟩
  · rw [if_pos hg]
    exact ⟨_, rfl, fun h0 => absurd h0 hn, fun _ _ => s.raise_failed .notInvertible, fun _ h1 => absurd h1 hg⟩

end Sys2Proof
end

section
/-! PROOFS. The statements about how a command is submitted, run and ended (60_exceptions.md): the write to CMD, the
engine's turn and the codes it ends with, the abort, and the interrupt output. -/

namespace Sys2Proof.Machine

/-! ## The engine's turn (R158) -/

section
variable {s : State}

/-- The engine moves when its turn is the next input, and when there is no input left (log 6). -/
theorem step_of_engineNext (h : s.engineNext = true) : step s = s.atTurn.engineTurn := by
  rcases step_turn s with ⟨-, hs⟩ | ⟨t, rest, hi, -⟩ | ⟨word, made, rest, hi, -⟩ | ⟨level, rest, hi, -⟩
  · exact hs
  all_goals simp [State.engineNext, hi] at h

theorem State.engineTurn_of_decode {f : InFlight} {i : Instr} (hr : s.rstN = true) (hf : s.inflight = some f)
    (hd : decode f.word = .ok i) : s.engineTurn = exec i s := by
  simp [State.engineTurn, State.command, hr, hf, hd]

theorem step_of_decode {f : InFlight} {i : Instr} (hr : s.rstN = true) (he : s.engineNext = true)
    (hf : s.inflight = some f) (hd : decode f.word = .ok i) : step s = exec i s.atTurn := by
  rw [step_of_engineNext he]
  exact State.engineTurn_of_decode (s := s.atTurn) hr hf hd

end

/-! ## How the engine ends a command (R140, R178) -/

/-- The outcome ends the in-flight command, with success or one of the three errors of the engine. -/
def EndsInTurn (r : Result) : Prop := ∃ t c, r = .next t ∧ Ended t c ∧ c ∈ [0#4, 2#4, 3#4, 4#4]

section
variable {s : State}

theorem EndsInTurn.raise {e : ErrorCode} (he : e ∈ [.badModulus, .notInvertible, .badOperand]) :
    EndsInTurn (.next (s.raise e)) := by
  have hcode : e.code ∈ [0#4, 2#4, 3#4, 4#4] := by
    revert e
    decide
  obtain ⟨-, -, hend, -⟩ := s.raise_failed e
  exact ⟨_, _, rfl, hend, hcode⟩

theorem EndsInTurn.completeOk {rd : Reg} {x : Nat} : EndsInTurn (.next (s.completeOk rd x)) := by
  obtain ⟨⟨-, -, -, hend, -⟩, -⟩ := s.completeOk_completed rd x
  exact ⟨_, _, rfl, hend, by decide⟩

theorem EndsInTurn.completePred {rd : Reg} {res : Bool} : EndsInTurn (.next (s.completePred rd res)) := by
  obtain ⟨⟨-, -, -, hend, -⟩, -⟩ := s.completePred_completed rd res
  exact ⟨_, _, rfl, hend, by decide⟩

theorem EndsInTurn.ite {p : Prop} [Decidable p] {r r' : Result} (h : EndsInTurn r) (h' : EndsInTurn r') :
    EndsInTurn (if p then r else r') := by
  split
  · exact h
  · exact h'

end

/-! ## Submission (R141) -/

/-- Every source is loaded exactly when no ghost bit of a limb of theirs is 0 (R23). -/
theorem State.reads_loaded_iff (s : State) (i : Instr) :
    i.reads.all s.loaded = true ↔ ∀ r ∈ i.reads, ∀ k, k < s.build.limbs → s.initBit r k = true := by
  simp only [List.all_eq_true, State.loaded_iff]

section
variable {s : State} {w : Word} {i : Instr} (hb : s.busy = false) (hd : decode w = .ok i)
include hb hd

theorem State.submit_loaded (hl : i.reads.all s.loaded = true) : s.submit w = .next (s.accept w) := by
  simp only [State.submit, hb, hd, hl]; rfl

theorem State.submit_unloaded (hl : i.reads.all s.loaded = false) : s.submit w = .fault .uninitOperand := by
  simp only [State.submit, hb, hd, hl]; rfl

theorem step_submit_loaded (hw : s.hostWrites 0x014 w) (hl : i.reads.all s.loaded = true) :
    step s = .next ((s.atTurn.accept w).reply ⟨.ok, none⟩) :=
  step_hostWrites_next hw (State.submit_loaded (s := s.atTurn) hb hd hl)

theorem step_submit_unloaded (hw : s.hostWrites 0x014 w) (hl : i.reads.all s.loaded = false) :
    step s = .fault .uninitOperand := by
  rw [step_hostWrites hw, State.memWrite_cmd, State.submit_unloaded (s := s.atTurn) hb hd hl]; rfl

end

/-! ## The accepted command reads the registers at acceptance (R41, R141) -/

section
variable {s : State} (hs : s.inflight = none) (r : Reg)
include hs

theorem State.operandA_of_idle : s.operandA r = s.reg r := by simp only [State.operandA, hs]
theorem State.operandB_of_idle : s.operandB r = s.reg r := by simp only [State.operandB, hs]
theorem State.operandM_of_idle : s.operandM r = s.reg r := by simp only [State.operandM, hs]

end

/-- The state with another CMDLAST and other values of the model's own fields, none of which a command reads. -/
def State.withPort (s : State) (cmdLast : Word) (answer : Option Answer) (inputs : List Input) (fresh : Nat) : State :=
  { s with cmdLast := cmdLast, answer := answer, inputs := inputs, fresh := fresh }

theorem exec_withPort (i : Instr) (s : State) (w : Word) (a : Option Answer) (ins : List Input) (n : Nat) :
    exec i (s.withPort w a ins n) = mapNext (·.withPort w a ins n) (exec i s) := by
  rcases exec_cases_of_same_operands (s := s) (s' := s.withPort w a ins n) rfl rfl rfl rfl i
    with ⟨e, h, h'⟩ | ⟨-, x, h, h'⟩ | ⟨res, h, h'⟩ | ⟨h, h'⟩ <;>
    rw [h, h'] <;> rfl

/-- Run in flight, a command but PRIMETEST ends as it does on the registers it was accepted with: the snapshots are
theirs, and its end overwrites what else acceptance changed, but for CMDLAST. -/
theorem exec_accept {s : State} {w : Word} {i : Instr} (hs : s.inflight = none) (hd : decode w = .ok i)
    (hne : ∀ rd ra rounds, i ≠ .primetest rd ra rounds) : exec i (s.accept w) = exec i { s with cmdLast := w } := by
  have hA : (s.accept w).operandA (raField w) = State.operandA { s with cmdLast := w } (raField w) :=
    (State.operandA_of_idle (s := { s with cmdLast := w }) hs _).symm
  have hB : (s.accept w).operandB (rbField w) = State.operandB { s with cmdLast := w } (rbField w) :=
    (State.operandB_of_idle (s := { s with cmdLast := w }) hs _).symm
  have hM : (s.accept w).operandM (rmField w) = State.operandM { s with cmdLast := w } (rmField w) :=
    (State.operandM_of_idle (s := { s with cmdLast := w }) hs _).symm
  obtain ⟨row, hrow, -, rfl⟩ := decode_eq_ok_iff.1 hd
  simp only [rows, List.mem_cons, List.not_mem_nil, or_false] at hrow
  rcases hrow with rfl | rfl | rfl | rfl | rfl | rfl | rfl
  · simp only [exec, execModred, hA, hM]; rfl
  · simp only [exec, execModmul, hA, hB, hM]; rfl
  · simp only [exec, execModexp, hA, hB, hM]; rfl
  · simp only [exec, execModinv, hA, hM]; rfl
  · simp only [exec, execFermat2, hA]; rfl
  · simp only [exec, execMrround, hA, hB]; rfl
  · exact absurd rfl (hne _ _ _)

/-- The engine's turn right after an acceptance ends the command as on the registers at submission (R41, R158). -/
theorem step_accepted {s u : State} {w : Word} {i : Instr} (hr : s.rstN = true)
    (hengine : s.inputs.tail.head? = some .engine) (hb : s.busy = false) (hd : decode w = .ok i)
    (hne : ∀ rd ra rounds, i ≠ .primetest rd ra rounds) (hu : exec i s = .next u) :
    step ((s.atTurn.accept w).reply ⟨.ok, none⟩)
      = .next (u.withPort w (some ⟨.ok, none⟩) s.inputs.tail.tail (s.fresh + 1)) := by
  have hnext : State.engineNext ((s.atTurn.accept w).reply ⟨.ok, none⟩) = true := by
    have hhead : ((s.atTurn.accept w).reply ⟨.ok, none⟩).inputs.head? = some .engine := hengine
    rw [State.engineNext, hhead]
    rfl
  calc step ((s.atTurn.accept w).reply ⟨.ok, none⟩)
      = exec i (State.accept (s.withPort w (some ⟨.ok, none⟩) s.inputs.tail.tail (s.fresh + 1)) w) :=
        step_of_decode (s := (s.atTurn.accept w).reply ⟨.ok, none⟩) hr hnext rfl hd
    _ = exec i (s.withPort w (some ⟨.ok, none⟩) s.inputs.tail.tail (s.fresh + 1)) :=
        exec_accept (s := s.withPort _ _ _ _) ((State.busy_false_iff s).1 hb) hd hne
    _ = .next (u.withPort w (some ⟨.ok, none⟩) s.inputs.tail.tail (s.fresh + 1)) := by
        rw [exec_withPort, hu, mapNext_next]

/-! ## Abort (R145) -/

section
variable (s : State)

@[simp] theorem State.abort_doneIE : s.abort.doneIE = s.doneIE := by cases h : s.inflight <;> simp [State.abort, h]
@[simp] theorem State.abort_ovrIE : s.abort.ovrIE = s.ovrIE := by cases h : s.inflight <;> simp [State.abort, h]

theorem State.memWrite_ctrl (w : Word) :
    s.memWrite 0x008 w = .next (if w.getLsbD 0 then s.abort else s) := rfl

end

end Sys2Proof.Machine

/-! ## The statements -/

namespace Sys2Proof
open Machine

/-- Settles O8: of the agents it is the engine that moves, and it runs what the in-flight word decodes to. -/
theorem stepRunsInFlightCommand : Obligations.StepRunsInFlightCommand := fun _ _ _ => step_of_decode

/-- Settles O26: but for PRIMETEST every branch of a command's rule is a completion or one of three errors. -/
theorem commandEndsInOneTurn : Obligations.CommandEndsInOneTurn := by
  intro i s hne
  change EndsInTurn (exec i s)
  cases i with
  | modred rd ra rm => rw [exec_modred]; exact .ite (.raise (by simp)) .completeOk
  | modmul rd ra rb rm => rw [exec_modmul]; exact .ite (.raise (by simp)) .completeOk
  | modexp rd ra rb rm => rw [exec_modexp]; exact .ite (.raise (by simp)) .completeOk
  | modinv rd ra rm => rw [exec_modinv]; exact .ite (.raise (by simp)) (.ite (.raise (by simp)) .completeOk)
  | fermat2 rd ra => rw [exec_fermat2]; exact .ite (.raise (by simp)) .completePred
  | mrround rd ra rb =>
    rcases exec_mrround_cases rd ra rb s with ⟨-, h⟩ | ⟨-, ⟨-, h⟩ | ⟨-, res, -, h⟩⟩ <;> rw [h]
    · exact .completePred
    · exact .raise (by simp)
    · exact .completePred
  | primetest rd ra rounds => exact absurd rfl (hne rd ra rounds)

/-- Settles O35, from the bits of STATUS and IRQEN, which are all 0 in reset. -/
theorem irqFollowsStatusAndIrqen : Obligations.IrqFollowsStatusAndIrqen := by
  have hirq : ∀ s : State, s.irq = (s.statusWord.getLsbD 1 && s.irqenWord.getLsbD 0
      || s.statusWord.getLsbD 4 && s.irqenWord.getLsbD 1) := by
    intro s
    simp only [State.statusWord_getLsbD, State.irqenWord_getLsbD]
    simp [State.irq]
  refine ⟨hirq, fun b => rfl, fun s hheld hr => ?_⟩
  obtain ⟨-, hstatus, hirqen, -⟩ := hheld hr
  rw [hirq, hstatus, hirqen]
  rfl

/-- Settles O36, outcome by outcome of the submission. -/
theorem cmdWriteSubmits : Obligations.CmdWriteSubmits := by
  intro s w hw
  refine ⟨fun hb => ⟨_, step_hostWrites_next hw (State.memWrite_discarded s.atTurn w hb (Or.inl rfl)), rfl⟩,
    fun hb ⟨e, he⟩ => ⟨_, step_hostWrites_next hw (State.submit_illegal (s := s.atTurn) hb he), rfl⟩,
    fun hb i hd => ⟨fun ⟨r, hr, k, hk, hbit⟩ => ?_, fun hall => ?_⟩⟩
  · have hl : i.reads.all s.loaded = false := by
      rw [Bool.eq_false_iff, ne_eq, State.reads_loaded_iff]
      intro hall
      rw [hall r hr k hk] at hbit
      cases hbit
    exact step_submit_unloaded hb hd hw hl
  · have hl : i.reads.all s.loaded = true := (s.reads_loaded_iff i).2 hall
    exact ⟨_, step_submit_loaded hb hd hw hl, rfl, rfl⟩

/-- Settles O41: the write aborts when bit 0 is set, which is felt by an in-flight command only. -/
theorem abortEndsCommand : Obligations.AbortEndsCommand := by
  intro s w hw
  refine ⟨_, step_hostWrites_next hw (s.atTurn.memWrite_ctrl w), fun hidle => ?_, fun f h0 hf => ?_⟩
  · have hsame : (if w.getLsbD 0 then s.atTurn.abort else s.atTurn) = s.atTurn := by
      rcases hidle with h0 | hnone
      · rw [h0, if_neg Bool.false_ne_true]
      · rw [State.abort_idle s.atTurn hnone, ite_self]
    rw [hsame]
    rfl
  · rw [if_pos h0]
    have hreg := State.abort_reg s.atTurn f hf
    have hinit := State.abort_init s.atTurn f hf
    refine ⟨State.abort_ended s.atTurn f hf, s.atTurn.abort_pred, ?_, fun k => ?_, fun r hr => ⟨?_, ?_⟩,
      s.atTurn.abort_ovr, s.atTurn.abort_doneIE, s.atTurn.abort_ovrIE, s.atTurn.abort_cmdLast, s.atTurn.abort_build⟩
    · rw [State.reply_reg, hreg, if_pos rfl]
      exact anyOperand_lt _ _
    · rw [State.initBit, State.reply_init, hinit, if_pos rfl]
      exact BitVec.getLsbD_zero
    · rw [State.reply_reg, hreg, if_neg hr]
      rfl
    · rw [State.reply_init, hinit, if_neg hr]
      rfl

/-- Settles O56: the two steps are the acceptance and the command's run on its snapshots, which are the registers at
submission. -/
theorem submittedCommandCompletes : Obligations.SubmittedCommandCompletes := by
  intro s w i hw hengine hb hd hne hl
  obtain ⟨u, c, hu, hend, -⟩ := commandEndsInOneTurn i s hne
  have hrun : Sys2Proof.core.run 2 s = .next (u.withPort w (some ⟨.ok, none⟩) s.inputs.tail.tail (s.fresh + 1)) := by
    rw [core_run_succ 1 (step_submit_loaded hb hd hw hl), core_run_succ 0 (step_accepted hw.1 hengine hb hd hne hu)]
    rfl
  obtain ⟨hidle, hdone, herr, hhidden⟩ := hend
  exact ⟨_, c, hrun, ⟨hidle, hdone, herr, hhidden⟩, rfl, u, hu, herr, fun _ => rfl⟩

end Sys2Proof
end

section
/-! PROOFS. The statements about reset and hazards (70_reset_and_hazards.md): the reset state, the pin `rst_n`, a window
write while busy and while idle, and a PRIMETEST whose entropy source has stopped. -/

namespace Sys2Proof.Machine

/-! ## The reset state (R166) -/

section
variable (b : Build)

theorem State.resetOf_reg (i : Reg) : (State.resetOf b).reg i = 0 := by simp [State.reg, State.resetOf]

theorem State.resetOf_initBit (i : Reg) (k : Nat) : (State.resetOf b).initBit i k = false := by
  simp [State.initBit, State.resetOf]

theorem State.resetOf_statusWord : (State.resetOf b).statusWord = 0 := by
  simp [State.statusWord, State.busy, State.err, State.resetOf]

theorem State.resetOf_flags : FlagsConsistent (State.resetOf b) :=
  ⟨fun hb => (by cases hb), fun he => absurd rfl he, Nat.zero_le _⟩

end

/-- The reset state of a legal build meets every clause of the invariant. -/
theorem State.resetOf_inv {b : Build} (hb : b.legal = true) : Inv (State.resetOf b) where
  build := hb
  operands := fun i => by rw [State.resetOf_reg]; positivity
  flags := State.resetOf_flags b
  marks := fun i k _ => State.resetOf_initBit b i k
  inflight := inFlightFaithful_of_idle rfl
  draws := drawsFaithful_of_nil rfl
  words := wordsFaithful_of_nil rfl
  held := heldInReset_of_rstN rfl

/-! ## The pin `rst_n` (R165) -/

section
variable {s : State} {rest : List Input}

theorem step_resetPin {level : Bool} (hi : s.inputs = .resetPin level :: rest) :
    step s = .next ((s.withInputs rest).drivePin level) := by
  simp only [step, hi]

/-- While the pin is low every host access is the fault ACCESS_IN_RESET, admitted or not (R165). -/
theorem step_host_inReset {t : Transaction} (hr : s.rstN = false) (hi : s.inputs = .host t :: rest) :
    step s = .fault .accessInReset := by
  simp [step, hi, State.hostTurn, hr]

end

/-- A reset leaves some value of the operand range in every register (R23, R165). -/
theorem State.assertReset_reg_lt (s : State) (r : Reg) : s.assertReset.reg r < 2 ^ s.build.width := by
  rw [State.assertReset_reg]
  exact anyOperand_lt _ _

/-! ## A write to the operand window (R53, R56, R173) -/

section
variable {s : State} {off : Offset} {i : Reg} {k : Nat} (hk : k < 128)
  (ho : off.toNat = 0x1000 + 0x200 * i.val + 4 * k) (w : Word)
include hk ho

theorem State.memWrite_window : s.memWrite off w = .next (s.windowWrite i k w) := by
  simp only [State.memWrite, targetOf_of_toNat off i k hk ho]

theorem step_window_write (h : s.hostWrites off w) :
    step s = .next ((s.atTurn.windowWrite i k w).reply ⟨.ok, none⟩) :=
  step_hostWrites_next h (State.memWrite_window hk ho w)

end

section
variable (s : State) (i j : Reg) (k : Nat) (w : Word)

/-- While busy a window write is discarded, and OVR records it (R173). -/
theorem State.windowWrite_busy (hb : s.busy = true) : s.windowWrite i k w = s.overrun := by
  rw [State.windowWrite, if_pos hb]

/-- The written limb reads as the value, every other limb of every register as before (R53, R56). -/
theorem State.writeLimb_limbOf (l : Nat) :
    limbOf ((s.writeLimb i k w).reg j) l = if j = i ∧ l = k then w else limbOf (s.reg j) l := by
  rw [State.writeLimb_reg]
  by_cases hj : j = i
  · subst hj
    rw [if_pos rfl]
    by_cases hl : l = k
    · subst hl
      rw [limbOf_setLimb_same, if_pos ⟨rfl, rfl⟩]
    · rw [limbOf_setLimb_ne _ _ _ _ hl, if_neg fun h => hl h.2]
  · rw [if_neg hj, if_neg fun h => hj h.1]

theorem State.writeLimb_reg_lt (hk : k < s.build.limbs) (hlt : s.reg i < 2 ^ s.build.width) :
    (s.writeLimb i k w).reg i < 2 ^ s.build.width := by
  rw [State.writeLimb_reg, if_pos rfl]
  exact setLimb_lt _ _ _ _ hlt hk

end

/-! ## A PRIMETEST without entropy (R179) -/

theorem State.atTurn_of_nil {s : State} (h : s.inputs = []) : s.atTurn = s := by
  rw [State.atTurn, h, List.tail_nil, ← h]
  rfl

/-- With no input left the engine moves, and it waits for the witness: the step changes nothing (R158; logs 6, 12). -/
theorem step_starved {s : State} (he : s.entReq = true) (hi : s.inputs = []) : step s = .next s := by
  obtain ⟨hr, f, rd, ra, rounds, hf, hd, hx⟩ := s.entReq_iff_waits.1 he
  have hnext : s.engineNext = true := by simp [State.engineNext, hi]
  rw [step_of_decode hr hnext hf hd, State.atTurn_of_nil hi, hx]

/-- A state that a step does not change is left by no run. -/
theorem core_run_of_step_self {s : State} (h : step s = .next s) (k : Nat) : Sys2Proof.core.run k s = .next s := by
  induction k with
  | zero => rfl
  | succ k ih => rw [core_run_succ k h, ih]

/-- Only an in-flight command asks for entropy (R26). -/
theorem State.entReq_of_idle {s : State} (h : s.inflight = none) : s.entReq = false := by
  simp only [State.entReq, h]

end Sys2Proof.Machine

/-! ## The statements -/

namespace Sys2Proof
open Machine

/-- Settles O37, by the three effects of a window write: discarded, stored, ignored above the operand. -/
theorem windowWriteStoresLimb : Obligations.WindowWriteStoresLimb := by
  intro s off i k w hw hk ho
  refine ⟨_, step_window_write hk ho w hw, fun hb => ?busy, fun hb hle => ?above, fun hb hlt => ?stored⟩
  case busy =>
    rw [State.windowWrite_busy s.atTurn i k w hb]
    rfl
  case above =>
    rw [State.windowWrite_above (s := s.atTurn) w i hb hle]
    rfl
  case stored =>
    rw [State.windowWrite_stored (s := s.atTurn) w i hb hlt]
    exact ⟨rfl, fun j l => s.atTurn.writeLimb_limbOf i j k w l, fun j l => s.atTurn.writeLimb_initBit i j k l w hk,
      s.atTurn.writeLimb_reg_lt i k w hlt⟩

/-- Settles O43: the assertion answers `State.assertReset`, in which the block is held until the release. -/
theorem resetPinAssertion : Obligations.ResetPinAssertion := by
  refine ⟨fun s ⟨rest, hi⟩ => ?_, fun s tr rest hr hi => step_host_inReset hr hi, fun s rest hi => step_resetPin hi⟩
  exact ⟨_, step_resetPin hi, rfl, State.assertReset_held _, rfl, rfl, State.entReq_of_idle rfl,
    (congrArg List.tail hi).symm, State.assertReset_reg_lt _⟩

/-- Settles O45: the starved state is its own next state, and the abort leaves nothing in flight to ask for entropy. -/
theorem starvedPrimetestStaysBusy : Obligations.StarvedPrimetestStaysBusy := by
  refine fun s he => ⟨fun hi => core_run_of_step_self (step_starved he hi), fun w hw h0 => ?_⟩
  obtain ⟨-, f, -, -, -, hf, -⟩ := s.entReq_iff.1 he
  have habort : s.atTurn.memWrite 0x008 w = .next s.atTurn.abort := by rw [State.memWrite_ctrl, if_pos h0]
  exact ⟨_, step_hostWrites_next hw habort, s.atTurn.abort_ended f hf, State.entReq_of_idle s.atTurn.abort_inflight⟩

/-- Settles O42, register by register of the map. -/
theorem resetStateOfTheSpec : Obligations.ResetStateOfTheSpec := by
  refine ⟨fun b => ⟨?_, rfl, State.resetOf_memRead_irqen b, rfl, rfl, rfl, rfl, rfl, rfl, State.resetOf_initBit b⟩, rfl⟩
  rw [State.memRead_status, State.resetOf_statusWord]

/-- Settles O54: the default build is legal, and the reset state of every legal build meets the invariant. -/
theorem resetStateMeetsInvariant : Obligations.ResetStateMeetsInvariant :=
  ⟨State.resetOf_inv (by decide), fun _ => State.resetOf_inv⟩

end Sys2Proof
end
